-- ==== Sys2Proof/Word.lean ====
section
/-! DEFINITION. The widths of the core's values (`00_scope.md` R9, R12). -/

namespace Sys2Proof

/-- A register, a memory cell, an instruction, an address or a pc: an unsigned 32-bit value (R9, R12). -/
abbrev Word := BitVec 32

/-- The executed-instruction counter: an unsigned 64-bit value (R9, R30). -/
abbrev Count := BitVec 64

/-- The index of one of the 8 general registers (R21). -/
abbrev Reg := Fin 8

end Sys2Proof
end

