-- ==== Sys2Proof/Syntax.lean ====
section
/-! DEFINITION. The instructions of the core: one constructor for each row of the opcode table, "each carrying only its relevant
operand fields" (`30_encoding.md` R63, R65). Operands stand in the order of the assembler syntax (R72). -/

namespace Sys2Proof

/-- A decoded instruction (R65). `a` is `reg_a`, `b` is `reg_b`, `d` is `dst_reg`; `imm` is the sign-extended offset (R66). -/
inductive Instr where
  /-- `ADD ra, rb, rd` (R100). -/
  | add (a b d : Reg)
  /-- `NOR ra, rb, rd` (R101). -/
  | nor (a b d : Reg)
  /-- `LW ra, rb, offset` (R110). -/
  | lw (a b : Reg) (imm : Word)
  /-- `SW ra, rb, offset` (R111). -/
  | sw (a b : Reg) (imm : Word)
  /-- `BEQ ra, rb, offset` (R120). -/
  | beq (a b : Reg) (imm : Word)
  /-- `JALR ra, rb` (R122). -/
  | jalr (a b : Reg)
  /-- `HALT` (R130). -/
  | halt
  /-- `NOOP` (R131). -/
  | noop
  deriving DecidableEq, Repr

end Sys2Proof
end

