-- ==== Sys2Proof/WellFormed.lean ====
section
/-! DEFINITION. Which instruction terms an encoding can stand for. Register fields are 3 bits by their type; the one check left is
that an immediate is the value of a 16-bit offset (`30_encoding.md` R66). -/

namespace Sys2Proof

/-- `imm` is "in the range −32768 to +32767" (R66). -/
def isOffset (imm : Word) : Bool :=
  decide (-32768 ≤ imm.toInt ∧ imm.toInt ≤ 32767)

/-- The instruction has an encoding: its immediate, where it has one, is an offset (R65, R66). -/
def Instr.wellFormed : Instr → Bool
  | .add _ _ _ => true
  | .nor _ _ _ => true
  | .lw _ _ imm => isOffset imm
  | .sw _ _ imm => isOffset imm
  | .beq _ _ imm => isOffset imm
  | .jalr _ _ => true
  | .halt => true
  | .noop => true

end Sys2Proof
end

