-- ==== Sys2Proof/Decode.lean ====
section
/-! DEFINITION. The instruction decoder and, after it, the canonical encoder (`30_encoding.md`). The decoder is total: no word is
refused (R68). -/

namespace Sys2Proof

/-- `sext_16(v)`: the low 16 bits read as two's complement, widened to 32 bits (`00_scope.md` R13). -/
def sext16 (off : BitVec 16) : Word := off.signExtend 32

/-- A 3-bit register field of a word, its lowest bit at `lo` (R61). -/
def regField (w : Word) (lo : Nat) : Reg := (w.extractLsb' lo 3).toFin

/-- The eight instruction forms an opcode selects (R63). -/
inductive Form where
  | add | nor | lw | sw | beq | jalr | halt | noop
  deriving DecidableEq, Repr

/-- The decoder's output bundle, made from every word whether or not its form uses each field (R70). -/
structure Fields where
  /-- `w[24:22]` -/
  opcode : BitVec 3
  /-- `w[21:19]` -/
  regA : Reg
  /-- `w[18:16]` -/
  regB : Reg
  /-- `w[2:0]` -/
  dstReg : Reg
  /-- `w[15:0]`, raw -/
  offset : BitVec 16
  /-- `sext_16(offset)` -/
  imm : Word
  deriving DecidableEq, Repr

/-- The fields of a word (R61, R62). -/
def fieldsOf (w : Word) : Fields :=
  { opcode := w.extractLsb' 22 3
    regA := regField w 19
    regB := regField w 16
    dstReg := regField w 0
    offset := w.extractLsb' 0 16
    imm := sext16 (w.extractLsb' 0 16) }

/-- `FORM[opcode]` (R63). -/
def formOf (op : BitVec 3) : Form :=
  match op.toNat with
  | 0 => .add
  | 1 => .nor
  | 2 => .lw
  | 3 => .sw
  | 4 => .beq
  | 5 => .jalr
  | 6 => .halt
  | _ => .noop

/-- The tagged value of R65 for a form, built from the fields. -/
def build (form : Form) (f : Fields) : Instr :=
  match form with
  | .add => .add f.regA f.regB f.dstReg
  | .nor => .nor f.regA f.regB f.dstReg
  | .lw => .lw f.regA f.regB f.imm
  | .sw => .sw f.regA f.regB f.imm
  | .beq => .beq f.regA f.regB f.imm
  | .jalr => .jalr f.regA f.regB
  | .halt => .halt
  | .noop => .noop

/-- `decode(w)`: a pure, total function of the word (R62, R68). -/
def decode (w : Word) : Instr :=
  let f := fieldsOf w
  build (formOf f.opcode) f

/-- The form of a decoded instruction. -/
def Instr.form : Instr → Form
  | .add _ _ _ => .add
  | .nor _ _ _ => .nor
  | .lw _ _ _ => .lw
  | .sw _ _ _ => .sw
  | .beq _ _ _ => .beq
  | .jalr _ _ => .jalr
  | .halt => .halt
  | .noop => .noop

/-! ### The canonical encoder (R69) -/

/-- The opcode of a form: the inverse of `FORM` (R63). -/
def Form.opcode : Form → BitVec 3
  | .add => 0
  | .nor => 1
  | .lw => 2
  | .sw => 3
  | .beq => 4
  | .jalr => 5
  | .halt => 6
  | .noop => 7

/-- `encode(op, a, b, lo) = (op << 22) | (a << 19) | (b << 16) | (lo & 0xFFFF)` (R69). -/
def encodeWord (op : BitVec 3) (a b : Reg) (lo : BitVec 16) : Word :=
  (op.setWidth 32 <<< 22) ||| (BitVec.ofNat 32 a.val <<< 19) ||| (BitVec.ofNat 32 b.val <<< 16) ||| lo.setWidth 32

/-- The canonical word of an instruction, every ignored bit zero (R69; DESIGN CHOICE of the spec, D8, log 6, unsafe). -/
def encode : Instr → Word
  | .add a b d => encodeWord Form.add.opcode a b (BitVec.ofNat 16 d.val)
  | .nor a b d => encodeWord Form.nor.opcode a b (BitVec.ofNat 16 d.val)
  | .lw a b imm => encodeWord Form.lw.opcode a b (imm.setWidth 16)
  | .sw a b imm => encodeWord Form.sw.opcode a b (imm.setWidth 16)
  | .beq a b imm => encodeWord Form.beq.opcode a b (imm.setWidth 16)
  | .jalr a b => encodeWord Form.jalr.opcode a b 0
  | .halt => encodeWord Form.halt.opcode 0 0 0
  | .noop => encodeWord Form.noop.opcode 0 0 0

/-- The bits a form reads: the complement of the bits it ignores (R67, R69). -/
def Form.usedBits : Form → Word
  | .add => 0x01FF0007
  | .nor => 0x01FF0007
  | .lw => 0x01FFFFFF
  | .sw => 0x01FFFFFF
  | .beq => 0x01FFFFFF
  | .jalr => 0x01FF0000
  | .halt => 0x01C00000
  | .noop => 0x01C00000

/-- The canonical word of a word: the ignored bits of its form cleared (R69). -/
def canonicalWord (w : Word) : Word :=
  w &&& (formOf (fieldsOf w).opcode).usedBits

/-- The instruction word whose low `nbits` bits are those of `w`, the bits above them zero. -/
def tableWord (nbits w : Nat) : Word := BitVec.ofNat 32 (w % 2 ^ nbits)

/-- The decoder on an instruction as the opcode table numbers its bits: the whole instruction is one word (R60), so the word is
given to `decode`, which refuses none (R68). -/
def decodeTableWord (nbits w : Nat) : Option Instr := some (decode (tableWord nbits w))

end Sys2Proof
end

