-- ==== Sys2Proof/Config.lean ====
section
/-! DEFINITION. The core's fixed parameters (`00_scope.md` R9). The number of registers and the
widths are the types of `Word.lean`. The source leaves no parameter to an implementation (R10) and no value free (R18), so there is no
opaque constant here. -/

namespace Sys2Proof.Config

/-- `MEM_WORDS`: the number of memory cells; the legal addresses are those below it (R9, R44). -/
def memWords : Nat := 65536

theorem memWords_eq : memWords = 65536 := rfl

end Sys2Proof.Config
end

