-- ==== Sys2Proof/Machine/State.lean ====
section
/-! DEFINITION. The architectural state of the core (`10_state.md` R20: exactly these six elements), the state at reset, and the
reasons a step could stop. -/

namespace Sys2Proof.Machine

/-- The access a `MemoryFault` names (R32, R140). -/
inductive AccessKind where
  | fetch
  | load
  | store
  deriving DecidableEq, Repr

/-- The contents of a fault record: the access that failed and the 32-bit address it used (R32; the spec's decision D3: DEDUCED,
log 3, unsafe). -/
structure FaultRecord where
  kind : AccessKind
  addr : Word
  deriving DecidableEq, Repr

/-- One listed memory cell: a word address and the 32-bit word it holds. The unit of addressing is the word, not the byte
(`20_memory.md` R42; DESIGN CHOICE log 1, safe). -/
abbrev Cell := Nat × Word

/-- The memory array `mem[0..65535]` (R40) as its cells that differ from `Memory.unlisted`, by rising address. -/
abbrev Memory := List Cell

/-- What a cell that is not listed reads as: memory is "zero-filled beyond the image length" (R41). -/
def Memory.unlisted : Word := 0

/-- The canonical form: addresses strictly rising, every listed address a cell of the array, and no cell listed that holds what an
unlisted one reads as. -/
abbrev Memory.wf (m : Memory) : Prop :=
  m.Pairwise (fun c c' => c.1 < c'.1) ∧ ∀ c ∈ m, c.1 < Config.memWords ∧ c.2 ≠ Memory.unlisted

/-- The architectural state (R20). -/
structure State where
  /-- `x[0..7]` (R21); none is hardwired (R22). -/
  regs : Vector Word 8
  /-- `mem[0..65535]` (R40). -/
  mem : Memory
  /-- `pc`, a word index, in or out of range between steps (R25, R27). -/
  pc : Word
  /-- `HALTED` (R28). -/
  halted : Bool
  /-- `COUNT` (R30). -/
  count : Count
  /-- `FAULT` (R32). -/
  fault : Option FaultRecord
  deriving DecidableEq, Repr

/-- The core's faults as ends of a run of the model. There is none: the one exception the spec defines, `MemoryFault`, has an entry
the spec describes (R142), so it is a next state with `HALTED` and `FAULT` set (log 2, safe). Raised by no one. -/
inductive Fault where
  deriving DecidableEq, Repr

/-- The core's refusals. -/
inductive Refusal where
  /-- An instruction without a meaning, by its mnemonic. Raised by no arm of `exec`: every instruction has its meaning (safe). -/
  | notModelled (mnemonic : String)
  deriving DecidableEq, Repr

/-- The state at construction, the core's only reset, from the empty image (R36, R160, R161; that an image is loaded from outside:
log 10). Every value is the spec's. -/
def State.reset : State :=
  { regs := Vector.replicate 8 0
    mem := []
    pc := 0
    halted := false
    count := 0
    fault := none }

end Sys2Proof.Machine
end

