-- ==== Sys2Proof/Machine/Flags.lean ====
section
/-! DEFINITION. The core has no condition codes, flags or predicates, and no instruction writes one (`10_state.md` R33). The one
condition it computes is the equality comparator's. -/

namespace Sys2Proof.Machine

/-- The comparator `A == B` of BEQ: all 32 bits (`40_step.md` R83, `43_control.md` R120). -/
def equal (x y : Word) : Bool := x == y

end Sys2Proof.Machine
end

