-- ==== Sys2Proof/Machine/Operands.lean ====
section
/-! DEFINITION. Operands and the adders that form values from them: register reads, the ALU, the effective address, the link value
and the branch target (`40_step.md` R83). -/

namespace Sys2Proof.Machine

/-- `x[r]`: a read of a general register (`00_scope.md` R14, `10_state.md` R21). -/
def State.reg (s : State) (r : Reg) : Word := s.regs[r]

/-- The ALU's ADD: `(A + B) mod 2^32`, with no overflow indication (R83). -/
def aluAdd (x y : Word) : Word := x + y

/-- The ALU's NOR: `~(A | B)` (R83). -/
def aluNor (x y : Word) : Word := ~~~(x ||| y)

/-- The address adder: `x[reg_a] + imm mod 2^32` (R83, R110). -/
def State.effAddr (s : State) (a : Reg) (imm : Word) : Word := s.reg a + imm

/-- The incrementer: `pc + 1`, the next instruction's address and JALR's link value (R83). -/
def State.link (s : State) : Word := s.pc + 1

/-- The branch adder: `pc + imm mod 2^32`, `pc` being the instruction's own address (R83, R121). -/
def State.branchTarget (s : State) (imm : Word) : Word := s.pc + imm

/-- The numeric code of an access kind (`60_exceptions.md` R140; the spec's numbering, D3, log 3). -/
def AccessKind.code : AccessKind → BitVec 2
  | .fetch => 0
  | .load => 1
  | .store => 2

end Sys2Proof.Machine
end

