-- ==== Sys2Proof/Machine/Ops.lean ====
section
/-! DEFINITION. The operations every meaning is written with: memory, register and pc writes, the end of an executed instruction, and
taking the one exception. -/

namespace Sys2Proof.Machine

/-! ### The memory array -/

/-- The word cell `a` holds. -/
def Memory.read : Memory → Nat → Word
  | [], _ => Memory.unlisted
  | (b, w) :: m, a => if a = b then w else Memory.read m a

/-- `m` with a cell in front of it, unless the cell holds what an unlisted one reads as. -/
def Memory.push (a : Nat) (v : Word) (m : Memory) : Memory :=
  if v = Memory.unlisted then m else (a, v) :: m

/-- `m` with `v` in cell `a`, in canonical form. -/
def Memory.write : Memory → Nat → Word → Memory
  | [], a, v => Memory.push a v []
  | (b, w) :: m, a, v =>
    if a < b then Memory.push a v ((b, w) :: m)
    else if a = b then Memory.push a v m
    else (b, w) :: Memory.write m a v

/-- The memory that holds the words of a list from address `base` on, and zeros elsewhere (`20_memory.md` R41). -/
def Memory.ofWords : Nat → List Word → Memory
  | _, [] => []
  | base, v :: vs => Memory.push base v (Memory.ofWords (base + 1) vs)

/-- The `len` words from address `start` on, in address order. -/
def Memory.window (m : Memory) (start len : Nat) : List Word :=
  (List.range len).map fun i => m.read (start + i)

/-- The word memory cell `a` of the state holds. -/
def State.cell (s : State) (a : Nat) : Word := s.mem.read a

/-- An address is legal iff it is below 65536 as an unsigned value (R44). -/
def legal (addr : Word) : Bool := decide (addr.toNat < Config.memWords)

/-- `MemRead(addr, 1)`: raises `MemoryFault(kind, addr)` on an address that is not legal (R44). -/
def State.memRead (s : State) (kind : AccessKind) (addr : Word) : Except FaultRecord Word :=
  if legal addr then .ok (s.cell addr.toNat) else .error ⟨kind, addr⟩

/-- `MemWrite(addr, 1, v)`: raises `MemoryFault(kind, addr)` on an address that is not legal (R44). -/
def State.memWrite (s : State) (kind : AccessKind) (addr v : Word) : Except FaultRecord State :=
  if legal addr then .ok { s with mem := s.mem.write addr.toNat v } else .error ⟨kind, addr⟩

/-- The fetch of a step: `MemRead(pc, 1)` of kind `Fetch` (`40_step.md` R81). -/
def State.fetch (s : State) : Except FaultRecord Word := s.memRead .fetch s.pc

/-! ### Registers and pc -/

/-- `x[r] <- v`; every register, `x[0]` too, is written (`10_state.md` R22). -/
def State.setReg (s : State) (r : Reg) (v : Word) : State := { s with regs := s.regs.set r v }

/-- `pc <- target`, with no check of its range (R27). -/
def State.setPc (s : State) (target : Word) : State := { s with pc := target }

/-- `pc <- pc + 1` (`40_step.md` R84). -/
def State.advance (s : State) : State := s.setPc s.link

/-! ### The frame of an executed instruction (`40_step.md` R81) -/

/-- What an instruction's body `execute(ins)` gives: the state its writes leave, or the fault it raises. -/
abbrev Body := Except FaultRecord State

/-- `COUNT <- COUNT + 1`, modulo 2^64 (R85; wrapping: the spec's decision D5, DEDUCED, log 5, unsafe). -/
def State.retire (s : State) : State := { s with count := s.count + 1 }

/-- `HALTED <- true` (R130). -/
def State.halt (s : State) : State := { s with halted := true }

/-- TAKING THE EXCEPTION: `HALTED <- true; FAULT <- Some(kind, addr)` on the state as it stood before the step, every write of the
step discarded (`60_exceptions.md` R142; pc and COUNT unchanged: the spec's decision D4, DEDUCED, log 4, unsafe). There is no return
from it: "a fault is terminal" (R144). -/
def State.takeMemoryFault (s : State) (f : FaultRecord) : State := { s with halted := true, fault := some f }

/-- The end of a step that ran a body other than HALT's: the writes are committed and counted, or a fault is taken from the state
before the step. -/
def State.commit (s : State) : Body → Host.Outcome State Fault Refusal
  | .ok t => .next t.retire
  | .error f => .next (s.takeMemoryFault f)

/-- The end of a step that ran HALT's body: as `State.commit`, and the engine halts (R81, R130). -/
def State.commitHalt (s : State) : Body → Host.Outcome State Fault Refusal
  | .ok t => .next t.retire.halt
  | .error f => .next (s.takeMemoryFault f)

end Sys2Proof.Machine
end

