-- ==== Sys2Proof/Machine/Arith.lean ====
section
/-! DEFINITION. Register-register instructions: ADD and NOR (`41_arith.md`). Each instruction has its body `execute(ins)` and its
meaning, the body inside the frame of `40_step.md` R81. -/

namespace Sys2Proof.Machine

/-- ADD's body: `x[d] <- (x[a] + x[b]) mod 2^32; pc <- pc + 1` (R100). -/
def bodyAdd (a b d : Reg) (s : State) : Body :=
  .ok (s.setReg d (aluAdd (s.reg a) (s.reg b))).advance

/-- ADD (R100). -/
def execAdd (a b d : Reg) (s : State) : Host.Outcome State Fault Refusal :=
  s.commit (bodyAdd a b d s)

/-- NOR's body: `x[d] <- ~(x[a] | x[b]); pc <- pc + 1` (R101). -/
def bodyNor (a b d : Reg) (s : State) : Body :=
  .ok (s.setReg d (aluNor (s.reg a) (s.reg b))).advance

/-- NOR (R101). -/
def execNor (a b d : Reg) (s : State) : Host.Outcome State Fault Refusal :=
  s.commit (bodyNor a b d s)

end Sys2Proof.Machine
end

