-- ==== Sys2Proof/Machine/Control.lean ====
section
/-! DEFINITION. Control-transfer instructions: BEQ and JALR (`43_control.md`). Both set `pc` and do not also advance it. -/

namespace Sys2Proof.Machine

/-- BEQ's body: to its own address plus the offset if the registers are equal, else to the next instruction (R120, R121). -/
def bodyBeq (a b : Reg) (imm : Word) (s : State) : Body :=
  if equal (s.reg a) (s.reg b) then .ok (s.setPc (s.branchTarget imm)) else .ok s.advance

/-- BEQ (R120). -/
def execBeq (a b : Reg) (imm : Word) (s : State) : Host.Outcome State Fault Refusal :=
  s.commit (bodyBeq a b imm s)

/-- JALR's body: the link is written first and the target read after the write, so with equal fields the target is the link
(R122; the spec's resolution C1, DEDUCED, log 7, unsafe). -/
def bodyJalr (a b : Reg) (s : State) : Body :=
  let linked := s.setReg b s.link
  .ok (linked.setPc (linked.reg a))

/-- JALR (R122). -/
def execJalr (a b : Reg) (s : State) : Host.Outcome State Fault Refusal :=
  s.commit (bodyJalr a b s)

end Sys2Proof.Machine
end

