-- ==== Sys2Proof/Machine/LoadStore.lean ====
section
/-! DEFINITION. Memory instructions: LW and SW (`42_loadstore.md`). The address is formed modulo 2^32 and then checked. -/

namespace Sys2Proof.Machine

/-- LW's body: `v <- MemRead(ea, 1); x[b] <- v; pc <- pc + 1` (R110). -/
def bodyLw (a b : Reg) (imm : Word) (s : State) : Body :=
  match s.memRead .load (s.effAddr a imm) with
  | .ok v => .ok (s.setReg b v).advance
  | .error f => .error f

/-- LW (R110). -/
def execLw (a b : Reg) (imm : Word) (s : State) : Host.Outcome State Fault Refusal :=
  s.commit (bodyLw a b imm s)

/-- SW's body: `MemWrite(ea, 1, x[b]); pc <- pc + 1` (R111). -/
def bodySw (a b : Reg) (imm : Word) (s : State) : Body :=
  match s.memWrite .store (s.effAddr a imm) (s.reg b) with
  | .ok t => .ok t.advance
  | .error f => .error f

/-- SW (R111). -/
def execSw (a b : Reg) (imm : Word) (s : State) : Host.Outcome State Fault Refusal :=
  s.commit (bodySw a b imm s)

end Sys2Proof.Machine
end

