-- ==== Sys2Proof/Machine/System.lean ====
section
/-! DEFINITION. Machine-control instructions: HALT and NOOP (`44_system.md`). -/

namespace Sys2Proof.Machine

/-- HALT's body: `pc <- pc + 1`; the frame counts it and sets `HALTED` (R130). -/
def bodyHalt (s : State) : Body := .ok s.advance

/-- HALT (R130). -/
def execHalt (s : State) : Host.Outcome State Fault Refusal :=
  s.commitHalt (bodyHalt s)

/-- NOOP's body: `pc <- pc + 1` (R131). -/
def bodyNoop (s : State) : Body := .ok s.advance

/-- NOOP (R131). -/
def execNoop (s : State) : Host.Outcome State Fault Refusal :=
  s.commit (bodyNoop s)

end Sys2Proof.Machine
end

