-- ==== Sys2Proof/Machine/Step.lean ====
section
/-! DEFINITION. One step of the engine (`40_step.md` R81), and placing an instruction where the next step fetches. -/

namespace Sys2Proof.Machine

/-- `step()`: a halted engine does nothing (R87); else fetch, with the fetch's range check, decode and execute. The body's frame (the
count, HALT's halting, a fault's entry) is in each meaning (R81). -/
def step (s : State) : Host.Outcome State Fault Refusal :=
  if s.halted then .next s
  else
    match s.fetch with
    | .error f => .next (s.takeMemoryFault f)
    | .ok w => exec (decode w) s

/-- The state with an instruction word in the cell the next step fetches. An engine that would fetch nothing is first made to fetch: a
halted one is Running again with no fault recorded, and a `pc` that names no cell becomes 0. No operation of the core does this; it
stands for the load of a program from outside (DESIGN CHOICE, log 10, unsafe). -/
def State.withFetchWord (s : State) (nbits w : Nat) : State :=
  let at' : Word := if legal s.pc then s.pc else 0
  { s with
    mem := s.mem.write at'.toNat (tableWord nbits w)
    pc := at'
    halted := false
    fault := if s.halted then none else s.fault }

end Sys2Proof.Machine
end

