-- ==== Sys2Proof/Machine/Datapath.lean ====
section
/-! DEFINITION. The hardware view of an executed instruction: control signals selected by the form drive the register file's ports, the
ALU, the address adder, the memory array's data port and the PC sequencer (`00_scope.md` R17, `10_state.md` R23, `20_memory.md` R54,
`40_step.md` R82, `43_control.md` R123). It is a second description, from the raw word, of what `exec` says from the decoded
instruction. -/

namespace Sys2Proof.Machine

/-- The ALU's two functions (R83). -/
inductive AluOp where
  | add | nor
  deriving DecidableEq, Repr

/-- Where the write port's address `WA` comes from. -/
inductive WriteAddr where
  | regB | dstReg
  deriving DecidableEq, Repr

/-- Where the write port's data `WD` comes from. -/
inductive WriteData where
  | aluOut | memOut | link
  deriving DecidableEq, Repr

/-- What the memory array's data port does. -/
inductive MemPort where
  | idle | read | write
  deriving DecidableEq, Repr

/-- What the PC sequencer selects. -/
inductive NextPc where
  | link | branch | jump
  deriving DecidableEq, Repr

/-- One row of R82's table. A dash of the table is a don't-care; here it holds some value (DESIGN CHOICE, log 15, safe). -/
structure Control where
  aluOp : AluOp
  writeEnable : Bool
  writeAddr : WriteAddr
  writeData : WriteData
  memPort : MemPort
  nextPc : NextPc
  setHalted : Bool
  deriving DecidableEq, Repr

/-- The control signals of a form (R82). -/
def controlOf : Form → Control
  | .add => ⟨.add, true, .dstReg, .aluOut, .idle, .link, false⟩
  | .nor => ⟨.nor, true, .dstReg, .aluOut, .idle, .link, false⟩
  | .lw => ⟨.add, true, .regB, .memOut, .read, .link, false⟩
  | .sw => ⟨.add, false, .regB, .aluOut, .write, .link, false⟩
  | .beq => ⟨.add, false, .regB, .aluOut, .idle, .branch, false⟩
  | .jalr => ⟨.add, true, .regB, .link, .idle, .jump, false⟩
  | .halt => ⟨.add, false, .regB, .aluOut, .idle, .link, true⟩
  | .noop => ⟨.add, false, .regB, .aluOut, .idle, .link, false⟩

/-- The ALU (R83). -/
def alu (op : AluOp) (x y : Word) : Word :=
  match op with
  | .add => aluAdd x y
  | .nor => aluNor x y

/-- The PC sequencer. A jump's target is the register file's read value, which is the one before the step, unless the two 3-bit fields
are equal: then it is the link (R82, R123). -/
def sequencePc (sel : NextPc) (regA regB : Reg) (rd1 rd2 link branchTarget : Word) : Word :=
  match sel with
  | .link => link
  | .branch => if equal rd1 rd2 then branchTarget else link
  | .jump => if regA = regB then link else rd1

/-- The memory array's data port: the word read and the memory after, or the fault it raises (R44, R54). -/
def dataPort (port : MemPort) (s : State) (ea v : Word) : Except FaultRecord (Word × Memory) :=
  match port with
  | .idle => .ok (Memory.unlisted, s.mem)
  | .read => (s.memRead .load ea).map fun w => (w, s.mem)
  | .write => (s.memWrite .store ea v).map fun t => (Memory.unlisted, t.mem)

/-- The sub-blocks at work under one row of control signals, on the decoder's fields (R17, R82). -/
def drive (c : Control) (f : Fields) (s : State) : Host.Outcome State Fault Refusal :=
  let rd1 := s.reg f.regA
  let rd2 := s.reg f.regB
  match dataPort c.memPort s (s.effAddr f.regA f.imm) rd2 with
  | .error r => .next (s.takeMemoryFault r)
  | .ok (memOut, mem) =>
    let wa : Reg := match c.writeAddr with
      | .regB => f.regB
      | .dstReg => f.dstReg
    let wd : Word := match c.writeData with
      | .aluOut => alu c.aluOp rd1 rd2
      | .memOut => memOut
      | .link => s.link
    .next
      { regs := if c.writeEnable then (s.setReg wa wd).regs else s.regs
        mem := mem
        pc := sequencePc c.nextPc f.regA f.regB rd1 rd2 s.link (s.branchTarget f.imm)
        halted := s.halted || c.setHalted
        count := s.count + 1
        fault := s.fault }

/-- One executed instruction, from its raw word, as the sub-blocks make it (R82). -/
def datapath (w : Word) (s : State) : Host.Outcome State Fault Refusal :=
  drive (controlOf (formOf (fieldsOf w).opcode)) (fieldsOf w) s

end Sys2Proof.Machine
end

