-- ==== Sys2Proof/Machine/HostPort.lean ====
section
/-! DEFINITION. The operations the core exposes to its host (`80_host_interface.md`): construction, the step operations with their
outcomes, and the observers. Each is one transaction between steps (R180). -/

namespace Sys2Proof.Machine

/-! ### Construction (`70_reset_and_hazards.md` R160, R161) -/

/-- What `construct` answers. -/
inductive Construction where
  /-- The engine in its reset state. -/
  | engine (s : State)
  /-- The image is longer than memory: no engine is produced (R161). -/
  | imageTooLarge
  deriving DecidableEq, Repr

/-- `construct(image)`: the image from address 0 on, zeros after it, everything else at reset (R160). -/
def construct (image : List Word) : Construction :=
  if image.length ≤ Config.memWords then .engine { State.reset with mem := Memory.ofWords 0 image }
  else .imageTooLarge

/-- The word the file-loading collaborator makes of an image integer: the integer modulo 2^32 (R162; outside the core, the spec's
decision D21, DEDUCED, log 14, unsafe). -/
def imageWord (z : Int) : Word := BitVec.ofInt 32 z

/-! ### Stepping (R183, R184) -/

/-- What a step answers to its caller (`40_step.md` R86; the payload is the spec's decision D3, log 3). -/
inductive StepOutcome where
  | continued
  | haltedThisStep
  | alreadyHalted
  | memoryFault (f : FaultRecord)
  deriving DecidableEq, Repr

/-- The body `execute(ins)` of an instruction (R81). -/
def bodyOf (i : Instr) (s : State) : Body :=
  match i with
  | .add a b d => bodyAdd a b d s
  | .nor a b d => bodyNor a b d s
  | .lw a b imm => bodyLw a b imm s
  | .sw a b imm => bodySw a b imm s
  | .beq a b imm => bodyBeq a b imm s
  | .jalr a b => bodyJalr a b s
  | .halt => bodyHalt s
  | .noop => bodyNoop s

/-- The outcome of a step that runs instruction `i`. -/
def instrOutcome (i : Instr) (s : State) : StepOutcome :=
  match bodyOf i s with
  | .error f => .memoryFault f
  | .ok _ => if i = .halt then .haltedThisStep else .continued

/-- The outcome `step()` answers from a state (R81, R86); the state it leaves is `step`'s (log 16). -/
def stepOutcome (s : State) : StepOutcome :=
  if s.halted then .alreadyHalted
  else
    match s.fetch with
    | .error f => .memoryFault f
    | .ok w => instrOutcome (decode w) s

/-- The outcome ends a `step_n` loop (R88). -/
def StepOutcome.stops : StepOutcome → Bool
  | .continued => false
  | .haltedThisStep => true
  | .alreadyHalted => false
  | .memoryFault _ => true

/-- `step_n(count)`: the state after, and the answer `HALTED` (R88; stopping at a fault: the spec's decision D15, log 9). -/
def stepN : Nat → State → Host.Outcome (State × Bool) Fault Refusal
  | 0, s => .next (s, s.halted)
  | n + 1, s =>
    if s.halted then .next (s, s.halted)
    else
      match step s with
      | .next t => if (stepOutcome s).stops then .next (t, t.halted) else stepN n t
      | .fault r => .fault r
      | .refused r => .refused r

/-! ### Observers (R182, R185–R190) -/

/-- An observer's answer: a value, or the observers' only error (R187). -/
inductive Reply (α : Type) where
  | value (v : α)
  | outOfRange
  deriving DecidableEq, Repr

/-- `read_register(r)` (R185; an index of 8 or more is out of range: the spec's decision D12, log 8). -/
def readRegister (s : State) (r : Nat) : Reply Word :=
  if h : r < 8 then .value (s.reg ⟨r, h⟩) else .outOfRange

/-- `read_memory_range(start, len)` (R186; the window's bound: the spec's decision D13, log 8). -/
def readMemoryRange (s : State) (start len : Nat) : Reply (List Word) :=
  if start + len ≤ Config.memWords then .value (s.mem.window start len) else .outOfRange

/-- `read_pc()` (R188). -/
def readPc (s : State) : Word := s.pc

/-- `read_instruction_count()` (R188). -/
def readInstructionCount (s : State) : Count := s.count

/-- `read_fault()` (R189; the spec's decision D16, log 8). -/
def readFault (s : State) : Option FaultRecord := s.fault

/-- `peek_instructions(count)`: the addresses and decoded instructions of the window at `pc` (R190; the window's bound: the spec's
decision D14, log 8). -/
def peekInstructions (s : State) (count : Nat) : Reply (List (Word × Instr)) :=
  if s.pc.toNat + count ≤ Config.memWords then
    .value ((List.range count).map fun i => (s.pc + BitVec.ofNat 32 i, decode (s.cell (s.pc.toNat + i))))
  else .outOfRange

/-! ### The step and observer ports (R181) -/

/-- What a host may ask of an engine it has constructed (R180, R192). -/
inductive Request where
  | step
  | stepN (count : Nat)
  | readRegister (r : Nat)
  | readMemoryRange (start len : Nat)
  | readPc
  | readInstructionCount
  | readFault
  | peekInstructions (count : Nat)
  deriving DecidableEq, Repr

/-- What the engine answers. -/
inductive Response where
  | outcome (o : StepOutcome)
  | halted (h : Bool)
  | word (r : Reply Word)
  | words (r : Reply (List Word))
  | pc (w : Word)
  | count (c : Count)
  | fault (f : Option FaultRecord)
  | instrs (r : Reply (List (Word × Instr)))
  deriving DecidableEq, Repr

/-- The request is an observer (R182). -/
def Request.observes : Request → Bool
  | .step => false
  | .stepN _ => false
  | .readRegister _ => true
  | .readMemoryRange _ _ => true
  | .readPc => true
  | .readInstructionCount => true
  | .readFault => true
  | .peekInstructions _ => true

/-- One request served: the state after it and the answer (R180, R181). -/
def serve (q : Request) (s : State) : Host.Outcome (State × Response) Fault Refusal :=
  match q with
  | .step =>
    match step s with
    | .next t => .next (t, .outcome (stepOutcome s))
    | .fault r => .fault r
    | .refused r => .refused r
  | .stepN n =>
    match stepN n s with
    | .next (t, h) => .next (t, .halted h)
    | .fault r => .fault r
    | .refused r => .refused r
  | .readRegister r => .next (s, .word (readRegister s r))
  | .readMemoryRange start len => .next (s, .words (readMemoryRange s start len))
  | .readPc => .next (s, .pc (readPc s))
  | .readInstructionCount => .next (s, .count (readInstructionCount s))
  | .readFault => .next (s, .fault (readFault s))
  | .peekInstructions n => .next (s, .instrs (peekInstructions s n))

end Sys2Proof.Machine
end

