-- ==== Sys2Proof/Safety.lean ====
section
/-! DEFINITION. What counts as a safe state and a safe end of a run, and the words the statements use for what a step leaves
unchanged. -/

namespace Sys2Proof.Machine

/-- A recorded fault is one the engine can have taken (`10_state.md` R32, `60_exceptions.md` R140, R142): the engine is halted, the
address is not legal, and it is `pc` for a fetch, while a load or store was fetched from a legal `pc`. -/
def State.faultConsistent (s : State) : Prop :=
  ∀ f, s.fault = some f →
    s.halted = true ∧ Config.memWords ≤ f.addr.toNat ∧ (f.kind = .fetch → s.pc = f.addr) ∧
      (f.kind ≠ .fetch → s.pc.toNat < Config.memWords)

/-- The invariant of the engine: memory is in canonical form and a recorded fault is consistent. -/
def State.inv (s : State) : Prop := s.mem.wf ∧ s.faultConsistent

/-- The run has ended, by HALT (`70_reset_and_hazards.md` R165). -/
def State.endedByHalt (s : State) : Prop := s.halted = true ∧ s.fault = none

/-- The run has ended, by a fault (R165). -/
def State.endedByFault (s : State) : Prop := s.halted = true ∧ s.fault ≠ none

/-- Every general register of `t` is that of `s`. -/
def State.sameRegs (s t : State) : Prop := ∀ r, t.reg r = s.reg r

/-- Every general register of `t` but `d` is that of `s`. -/
def State.sameRegsExcept (s t : State) (d : Reg) : Prop := ∀ r, r ≠ d → t.reg r = s.reg r

/-- Every memory cell reads in `t` as it reads in `s`. -/
def State.sameMem (s t : State) : Prop := ∀ addr, t.cell addr = s.cell addr

/-- Every memory cell but `a` reads in `t` as it reads in `s`. -/
def State.sameMemExcept (s t : State) (a : Nat) : Prop := ∀ addr, addr ≠ a → t.cell addr = s.cell addr

/-- `t` is `s` after an executed instruction that does not halt, as far as the status state goes: one more is counted, `HALTED` and
`FAULT` are unchanged. -/
def State.counted (s t : State) : Prop := t.count = s.count + 1 ∧ t.halted = s.halted ∧ t.fault = s.fault

end Sys2Proof.Machine
end

