-- ==== Sys2Proof/Certificates/Slice0/Obligations.lean ====
section
/-! DEFINITION. The statements about the core, for the provers. Each docstring names the rule of `spec/` its statement formalises; a
statement whose docstring names a log entry rests on a choice the spec marks as its own. -/

open Sys2Proof Sys2Proof.Machine

/-! ### The encoding -/

/-- Words written out bit by bit from the formats of R64, among them words with ignored bits set (`95_test_vectors.md` section 2). -/
def Obligations.SampleWordsDecodeAsWritten : Prop :=
  decode 0b00000000000010100000000000000011 = .add 1 2 3 ∧
  decode 0b11111110000010101111111111111011 = .add 1 2 3 ∧
  decode 0b00000000010010100000000000000011 = .nor 1 2 3 ∧
  decode 0b00000000100000011111111111111111 = .lw 0 1 (BitVec.ofInt 32 (-1)) ∧
  decode 0b00000000110000110000000000000111 = .sw 0 3 7 ∧
  decode 0b00000001000000001111111111111101 = .beq 0 0 (BitVec.ofInt 32 (-3)) ∧
  decode 0b00000001010010100001001000110100 = .jalr 1 2 ∧
  decode 0b01111111101111111111111111111111 = .halt ∧
  decode 0b11111111111111111111111111111111 = .noop

/-- R61, R62: the opcode is `(word >> 22) & 7`, the register fields are `(word >> 19) & 7`, `(word >> 16) & 7` and `word & 7`, the
immediate is the sign extension of `word[15:0]`, and the opcode selects the tagged value built from them. -/
def Obligations.DecodeReadsFieldsByShiftAndMask : Prop :=
  ∀ w : Word, ∃ (a b d : Reg) (imm : Word),
    a.val = (w >>> 19 &&& 7).toNat ∧ b.val = (w >>> 16 &&& 7).toNat ∧ d.val = (w &&& 7).toNat ∧
    imm.toInt = (w.setWidth 16).toInt ∧
    decode w =
      match (w >>> 22 &&& 7).toNat with
      | 0 => .add a b d
      | 1 => .nor a b d
      | 2 => .lw a b imm
      | 3 => .sw a b imm
      | 4 => .beq a b imm
      | 5 => .jalr a b
      | 6 => .halt
      | _ => .noop

/-- R66: the immediate of LW, SW and BEQ is `word[15:0]` as a signed 16-bit number, neither scaled nor shifted, in the range −32768 to
+32767. -/
def Obligations.ImmediateIsTheSignedOffset : Prop :=
  ∀ (w imm : Word) (a b : Reg), (decode w = .lw a b imm ∨ decode w = .sw a b imm ∨ decode w = .beq a b imm) →
    (w.toNat % 65536 < 32768 → imm.toInt = w.toNat % 65536) ∧
    (32768 ≤ w.toNat % 65536 → imm.toInt = (w.toNat % 65536 : Int) - 65536) ∧
    -32768 ≤ imm.toInt ∧ imm.toInt ≤ 32767

/-- R68, R141: decoding is total. Every word is of exactly one form, the one whose opcode its bits 24–22 are; the table's words are all
decoded (how a table word is numbered is the model's choice, log 17); and executing a word's instruction answers a next state in every
state, an LW or SW out of range included, because a `MemoryFault` (R142) is a next state of this model (DEDUCED, log 2). -/
def Obligations.EveryWordDecodesToExactlyOneForm : Prop :=
  ∀ w : Word,
    (∃! form : Form, (decode w).form = form ∧ form.opcode.toNat = w.toNat / 2 ^ 22 % 8) ∧
    (∀ nbits : Nat, (decodeTableWord nbits w.toNat).isSome = true) ∧
    ∀ s : State, ∃ t, exec (decode w) s = .next t

/-- R69 (the canonical encoder: the spec's decision D8, log 6): decoding an encoded well-formed instruction gives it back, and the encoder
sets none of the bits its form ignores. -/
def Obligations.DecodeOfEncodeIsTheInstruction : Prop :=
  ∀ i : Instr, i.wellFormed = true → decode (encode i) = i ∧ encode i &&& ~~~ i.form.usedBits = 0

/-- R69 (the spec's decision D8, log 6): encoding a decoded word gives its canonical word, the word with the ignored bits of its form
cleared, and the two decode alike. -/
def Obligations.EncodeOfDecodeIsTheCanonicalWord : Prop :=
  ∀ w : Word, encode (decode w) = canonicalWord w ∧ canonicalWord w = w &&& (decode w).form.usedBits ∧
    decode (canonicalWord w) = decode w

/-- R67 (the spec's decision D8, log 6): two words that differ only in bits 31–25 decode alike, and so do two that differ only in bits
15–3 of ADD or NOR, bits 15–0 of JALR, or bits 21–0 of HALT or NOOP. -/
def Obligations.IgnoredBitsDoNotChangeTheInstruction : Prop :=
  ∀ v w : Word, (v ^^^ w) &&& (decode w).form.usedBits = 0 → decode v = decode w

/-- Every word decodes to a well-formed instruction (log 11). -/
def Obligations.DecodedInstructionIsWellFormed : Prop :=
  ∀ w : Word, (decode w).wellFormed = true

/-! ### The ALU and the adders -/

/-- R83: what the ALU, the comparator, the address adder, the branch adder and the incrementer compute, in natural numbers and bits. -/
def Obligations.AluAndAddersComputeModulo : Prop :=
  ∀ (x y imm : Word) (s : State) (a : Reg),
    (alu .add x y).toNat = (x.toNat + y.toNat) % 2 ^ 32 ∧
    (∀ k, k < 32 → (alu .nor x y).getLsbD k = !(x.getLsbD k || y.getLsbD k)) ∧
    (equal x y = true ↔ x.toNat = y.toNat) ∧
    (s.effAddr a imm).toNat = ((s.reg a).toNat + imm.toNat) % 2 ^ 32 ∧
    (s.branchTarget imm).toNat = (s.pc.toNat + imm.toNat) % 2 ^ 32 ∧
    s.link.toNat = (s.pc.toNat + 1) % 2 ^ 32

/-! ### Register-register instructions -/

/-- R100: ADD completes in every state. It writes the sum modulo 2^32 to `dst_reg`, whichever register that is, and changes no other
register, no memory word, no `HALTED` and no `FAULT`; `pc` and `COUNT` go up by one. Its canonical word has opcode 0. -/
def Obligations.AddWritesTheWrappedSum : Prop :=
  ∀ (a b d : Reg) (s : State),
    decode (BitVec.ofNat 32 (0 * 2 ^ 22 + a.val * 2 ^ 19 + b.val * 2 ^ 16 + d.val)) = .add a b d ∧
    ∃ t, exec (.add a b d) s = .next t ∧
      (t.reg d).toNat = ((s.reg a).toNat + (s.reg b).toNat) % 2 ^ 32 ∧
      s.sameRegsExcept t d ∧ s.sameMem t ∧ t.pc = s.pc + 1 ∧ s.counted t

/-- R101: NOR completes in every state. It writes the bitwise NOR to `dst_reg`, whichever register that is, and changes no other
register, no memory word, no `HALTED` and no `FAULT`; `pc` and `COUNT` go up by one. Its canonical word has opcode 1. -/
def Obligations.NorWritesTheComplementOfTheOr : Prop :=
  ∀ (a b d : Reg) (s : State),
    decode (BitVec.ofNat 32 (1 * 2 ^ 22 + a.val * 2 ^ 19 + b.val * 2 ^ 16 + d.val)) = .nor a b d ∧
    ∃ t, exec (.nor a b d) s = .next t ∧
      (∀ k, k < 32 → (t.reg d).getLsbD k = !((s.reg a).getLsbD k || (s.reg b).getLsbD k)) ∧
      s.sameRegsExcept t d ∧ s.sameMem t ∧ t.pc = s.pc + 1 ∧ s.counted t

/-- R102 (in part): ADD is commutative. -/
def Obligations.AddIsCommutative : Prop :=
  ∀ (a b d : Reg) (s : State), exec (.add a b d) s = exec (.add b a d) s

/-! ### Memory instructions -/

/-- R110 (its completing case): on a legal effective address LW loads the word of the cell into `reg_b`, `x[0]` like any other, and
changes no other register, no memory word, no `HALTED` and no `FAULT`; `pc` and `COUNT` go up by one. -/
def Obligations.LoadReadsTheWordInRange : Prop :=
  ∀ (a b : Reg) (imm : Word) (s : State), (s.effAddr a imm).toNat < 65536 →
    ∃ t, exec (.lw a b imm) s = .next t ∧
      t.reg b = s.cell (s.effAddr a imm).toNat ∧
      s.sameRegsExcept t b ∧ s.sameMem t ∧ t.pc = s.pc + 1 ∧ s.counted t

/-- R110 (its faulting case; the recorded fault and the unchanged `pc` and `COUNT` are the spec's decisions D3 and D4, logs 3 and 4): on
an effective address of 65536 or more LW takes `MemoryFault(Load, ea)`. -/
def Obligations.LoadOutOfRangeTakesTheFault : Prop :=
  ∀ (a b : Reg) (imm : Word) (s : State), 65536 ≤ (s.effAddr a imm).toNat →
    ∃ t, exec (.lw a b imm) s = .next t ∧
      t.halted = true ∧ t.fault = some ⟨.load, s.effAddr a imm⟩ ∧
      s.sameRegs t ∧ s.sameMem t ∧ t.pc = s.pc ∧ t.count = s.count

/-- R111 (its completing case): on a legal effective address SW stores `reg_b` to the cell and changes no other cell, no register, no
`HALTED` and no `FAULT`; `pc` and `COUNT` go up by one. Memory is in canonical form (`InvariantKeptByEveryStep`). -/
def Obligations.StoreWritesTheWordInRange : Prop :=
  ∀ (a b : Reg) (imm : Word) (s : State), s.mem.wf → (s.effAddr a imm).toNat < 65536 →
    ∃ t, exec (.sw a b imm) s = .next t ∧
      t.cell (s.effAddr a imm).toNat = s.reg b ∧
      s.sameMemExcept t (s.effAddr a imm).toNat ∧ s.sameRegs t ∧ t.pc = s.pc + 1 ∧ s.counted t

/-- R111 (its faulting case; the recorded fault and the unchanged `pc` and `COUNT` are the spec's decisions D3 and D4, logs 3 and 4): on
an effective address of 65536 or more SW takes `MemoryFault(Store, ea)` and stores nothing. -/
def Obligations.StoreOutOfRangeTakesTheFault : Prop :=
  ∀ (a b : Reg) (imm : Word) (s : State), 65536 ≤ (s.effAddr a imm).toNat →
    ∃ t, exec (.sw a b imm) s = .next t ∧
      t.halted = true ∧ t.fault = some ⟨.store, s.effAddr a imm⟩ ∧
      s.sameRegs t ∧ s.sameMem t ∧ t.pc = s.pc ∧ t.count = s.count

/-- R49, R111 (its example): a store to a legal address followed by a load from it, into any register and by whichever base register and
offset give that address, gives the stored value. -/
def Obligations.StoreThenLoadReturnsTheValue : Prop :=
  ∀ (a b base c : Reg) (imm off : Word) (s : State), s.mem.wf → (s.effAddr a imm).toNat < 65536 →
    s.effAddr base off = s.effAddr a imm →
    ∃ t u, exec (.sw a b imm) s = .next t ∧ exec (.lw base c off) t = .next u ∧ u.reg c = s.reg b

/-- R52: a store to the address of the next instruction is what the next step fetches. -/
def Obligations.StoreIsSeenByTheNextFetch : Prop :=
  ∀ (a b : Reg) (imm : Word) (s : State), s.mem.wf → s.halted = false → s.pc.toNat < 65536 →
    decode (s.cell s.pc.toNat) = .sw a b imm → s.effAddr a imm = s.pc + 1 → (s.effAddr a imm).toNat < 65536 →
    ∃ t, step s = .next t ∧ t.pc = s.effAddr a imm ∧ step t = exec (decode (s.reg b)) t

/-- R46 (in part): a step that changes a memory cell ran a SW whose effective address is that cell, legal, and stored its `reg_b`. -/
def Obligations.OnlyStoresChangeMemory : Prop :=
  ∀ (s t : State) (addr : Nat), s.mem.wf → step s = .next t → t.cell addr ≠ s.cell addr →
    s.halted = false ∧ s.pc.toNat < 65536 ∧ addr < 65536 ∧
    ∃ a b imm, decode (s.cell s.pc.toNat) = .sw a b imm ∧ (s.effAddr a imm).toNat = addr ∧ t.cell addr = s.reg b

/-! ### Control transfer -/

/-- R121 (and the completing cases of R120): BEQ completes in every state. Its target is its own address plus the offset, with no `+ 1`, when the registers
are equal, and the next instruction when they are not; nothing else changes but `COUNT`. -/
def Obligations.BranchTargetIsRelativeToItsOwnAddress : Prop :=
  ∀ (a b : Reg) (imm : Word) (s : State),
    ∃ t, exec (.beq a b imm) s = .next t ∧
      (s.reg a = s.reg b → (t.pc.toNat : Int) = ((s.pc.toNat : Int) + imm.toInt) % 2 ^ 32) ∧
      (s.reg a ≠ s.reg b → t.pc = s.pc + 1) ∧
      s.sameRegs t ∧ s.sameMem t ∧ s.counted t

/-- R122 (its completing effect; with equal fields the resolution C1 of the spec, log 7): JALR completes in every state. It writes
`pc + 1` to `reg_b` and continues at the old `x[reg_a]`, or at the link when the two fields are equal; nothing else changes but
`COUNT`. -/
def Obligations.JumpAndLinkWritesTheLinkThenJumps : Prop :=
  ∀ (a b : Reg) (s : State),
    ∃ t, exec (.jalr a b) s = .next t ∧
      t.reg b = s.pc + 1 ∧
      (a ≠ b → t.pc = s.reg a) ∧ (a = b → t.pc = s.pc + 1) ∧
      s.sameRegsExcept t b ∧ s.sameMem t ∧ s.counted t

/-- R120 (its corner case), R165 (which the spec marks as its own inference): a BEQ of equal registers with offset 0 loops for ever: after
any number of steps the engine runs, stands at the same instruction, and has counted each step. `COUNT` is `n` higher modulo 2^64: past
2^64 − 1 that rests on the wrap of R31, the spec's decision D5 (DEDUCED, log 5). -/
def Obligations.BranchToItselfNeverHalts : Prop :=
  ∀ (a b : Reg) (s : State), s.halted = false → s.pc.toNat < 65536 → decode (s.cell s.pc.toNat) = .beq a b 0 →
    s.reg a = s.reg b →
    ∀ n : Nat, ∃ t, Sys2Proof.core.run n s = .next t ∧ t.halted = false ∧ t.pc = s.pc ∧ t.count = s.count + BitVec.ofNat 64 n ∧
      t.regs = s.regs ∧ t.mem = s.mem ∧ t.fault = s.fault

/-! ### Machine control -/

/-- R130: HALT, whatever its bits outside the opcode. It advances `pc`, is counted, sets `HALTED` and answers HaltedThisStep; registers,
memory and `FAULT` are unchanged, and no later step or `step_n` changes anything. -/
def Obligations.HaltStopsTheMachineForGood : Prop :=
  (∀ w : Word, (w >>> 22 &&& 7).toNat = 6 → decode w = .halt) ∧
  ∀ s : State, instrOutcome .halt s = .haltedThisStep ∧
    ∃ t, exec .halt s = .next t ∧
      t.pc = s.pc + 1 ∧ t.halted = true ∧ t.count = s.count + 1 ∧ t.fault = s.fault ∧ s.sameRegs t ∧ s.sameMem t ∧
      ∀ n : Nat, Sys2Proof.core.run n t = .next t ∧ stepN n t = .next (t, true) ∧ stepOutcome t = .alreadyHalted

/-- R131: NOOP, whatever its bits outside the opcode. It changes nothing but `pc` and `COUNT`, each up by one. -/
def Obligations.NoopOnlyAdvancesAndCounts : Prop :=
  (∀ w : Word, (w >>> 22 &&& 7).toNat = 7 → decode w = .noop) ∧
  ∀ s : State, ∃ t, exec .noop s = .next t ∧ t.pc = s.pc + 1 ∧ s.sameRegs t ∧ s.sameMem t ∧ s.counted t

/-! ### The step -/

/-- R81: a step of a running engine whose `pc` is legal is the instruction that the word at `pc` decodes to, and so a well-formed
instruction whose encoding stands there. The body's frame (the count, HALT's halting, a fault's entry) is inside `exec`. -/
def Obligations.StepRunsTheDecodedInstruction : Prop :=
  ∀ s : State, s.halted = false → s.pc.toNat < 65536 →
    step s = exec (decode (s.cell s.pc.toNat)) s ∧
    ∀ i : Instr, i.wellFormed = true → s.cell s.pc.toNat = encode i → step s = exec i s

/-- R81, R140, R142 (the recorded fault and the unchanged `pc` and `COUNT` are the spec's decisions D3 and D4, logs 3 and 4): a step of a
running engine whose `pc` is 65536 or more takes `MemoryFault(Fetch, pc)`. -/
def Obligations.FetchOutOfRangeTakesTheFault : Prop :=
  ∀ s : State, s.halted = false → 65536 ≤ s.pc.toNat →
    stepOutcome s = .memoryFault ⟨.fetch, s.pc⟩ ∧
    ∃ t, step s = .next t ∧ t.halted = true ∧ t.fault = some ⟨.fetch, s.pc⟩ ∧
      s.sameRegs t ∧ s.sameMem t ∧ t.pc = s.pc ∧ t.count = s.count

/-- R142 (the spec's decisions D3 and D4, logs 3 and 4): a step that answers `MemoryFault` keeps registers, memory, `pc` and `COUNT`, halts
the engine and records the fault; the address recorded is not a legal one. -/
def Obligations.FaultingStepDiscardsEveryWrite : Prop :=
  ∀ (s : State) (f : FaultRecord), stepOutcome s = .memoryFault f →
    65536 ≤ f.addr.toNat ∧
    ∃ t, step s = .next t ∧ t.halted = true ∧ t.fault = some f ∧
      s.sameRegs t ∧ s.sameMem t ∧ t.pc = s.pc ∧ t.count = s.count

/-- R145 (its fault row is the spec's resolution C4; the record is D3, log 3): the transitions of the step state machine, and the outcome
each answers. -/
def Obligations.StepFollowsTheStateMachine : Prop :=
  ∀ s : State, ∃ t, step s = .next t ∧
    (s.halted = true → stepOutcome s = .alreadyHalted ∧ t = s) ∧
    (s.halted = false →
      (stepOutcome s = .continued ∧ t.halted = false ∧ t.count = s.count + 1 ∧ t.fault = s.fault ∧
        decode (s.cell s.pc.toNat) ≠ .halt) ∨
      (stepOutcome s = .haltedThisStep ∧ t.halted = true ∧ t.count = s.count + 1 ∧ t.fault = s.fault ∧ t.pc = s.pc + 1 ∧
        decode (s.cell s.pc.toNat) = .halt) ∨
      ∃ f, stepOutcome s = .memoryFault f ∧ t = { s with halted := true, fault := some f })

/-- R29, R87: a halted engine is unchanged by any number of steps or by `step_n`, and every step of it answers AlreadyHalted. -/
def Obligations.HaltedEngineNeverChanges : Prop :=
  ∀ s : State, s.halted = true →
    stepOutcome s = .alreadyHalted ∧ ∀ n : Nat, Sys2Proof.core.run n s = .next s ∧ stepN n s = .next (s, true)

/-- R28: `HALTED` is false at construction, stays set once set, and a step of a running engine sets it exactly when it executes HALT or
raises a `MemoryFault` in its fetch, load or store. -/
def Obligations.HaltedIsSetOnlyByHaltOrFault : Prop :=
  State.reset.halted = false ∧
  ∀ s t : State, step s = .next t →
    (s.halted = true → t.halted = true) ∧
    (s.halted = false →
      (t.halted = true ↔
        65536 ≤ s.pc.toNat ∨
        decode (s.cell s.pc.toNat) = .halt ∨
        ∃ a b imm, (decode (s.cell s.pc.toNat) = .lw a b imm ∨ decode (s.cell s.pc.toNat) = .sw a b imm) ∧
          65536 ≤ (s.effAddr a imm).toNat))

/-- R30: `COUNT` is 0 at construction, goes up by exactly one with every instruction executed, HALT included, and not with the steps of a
halted engine. -/
def Obligations.CounterCountsExecutedInstructions : Prop :=
  State.reset.count = 0 ∧
  ∀ s t : State, step s = .next t →
    (stepOutcome s = .continued ∨ stepOutcome s = .haltedThisStep → t.count = s.count + 1) ∧
    (s.halted = true → t.count = s.count)

/-- R26: a step that executes an instruction moves `pc` by one, by the offset of a taken BEQ, or to the register JALR reads. JALR reads it
after the link is written (R122): with equal fields that is the spec's resolution C1 (DEDUCED, log 7). -/
def Obligations.PcMovesByOneByOffsetOrToARegister : Prop :=
  ∀ s t : State, step s = .next t → (stepOutcome s = .continued ∨ stepOutcome s = .haltedThisStep) →
    t.pc = s.pc + 1 ∨
    (∃ a b imm, decode (s.cell s.pc.toNat) = .beq a b imm ∧ s.reg a = s.reg b ∧ t.pc = s.pc + imm) ∨
    ∃ a b, decode (s.cell s.pc.toNat) = .jalr a b ∧ t.pc = t.reg a

/-- R27, R84 (an inference of the spec): the sequential advance of an executed instruction, that of a BEQ not taken included, never wraps,
and ends at most at 65536. -/
def Obligations.SequentialPcNeverWraps : Prop :=
  ∀ s t : State, step s = .next t → (stepOutcome s = .continued ∨ stepOutcome s = .haltedThisStep) →
    (∀ a b imm, decode (s.cell s.pc.toNat) = .beq a b imm → s.reg a ≠ s.reg b) → (∀ a b, decode (s.cell s.pc.toNat) ≠ .jalr a b) →
    t.pc.toNat = s.pc.toNat + 1 ∧ t.pc.toNat ≤ 65536

/-- R165 (an inference of the spec): a step of a running engine ends the run by HALT exactly when it answers HaltedThisStep, and by a fault
exactly when it answers MemoryFault; no other step ends it. -/
def Obligations.RunEndsByHaltOrByFault : Prop :=
  ∀ s t : State, s.inv → s.halted = false → step s = .next t →
    (t.endedByHalt ↔ stepOutcome s = .haltedThisStep) ∧
    (t.endedByFault ↔ ∃ f, stepOutcome s = .memoryFault f) ∧
    (t.halted = false ↔ stepOutcome s = .continued)

/-- R23 (an inference of the spec): a step that changes a register ran an instruction whose write register it is, and wrote the value R23
gives. -/
def Obligations.OnlyTheWritePortChangesARegister : Prop :=
  ∀ (s t : State) (r : Reg), step s = .next t → t.reg r ≠ s.reg r →
    s.halted = false ∧ s.pc.toNat < 65536 ∧
    ((∃ a b, decode (s.cell s.pc.toNat) = .add a b r ∧ t.reg r = s.reg a + s.reg b) ∨
     (∃ a b, decode (s.cell s.pc.toNat) = .nor a b r ∧ t.reg r = ~~~(s.reg a ||| s.reg b)) ∨
     (∃ a imm, decode (s.cell s.pc.toNat) = .lw a r imm ∧ (s.effAddr a imm).toNat < 65536 ∧
       t.reg r = s.cell (s.effAddr a imm).toNat) ∨
     ∃ a, decode (s.cell s.pc.toNat) = .jalr a r ∧ t.reg r = s.pc + 1)

/-- R82, R123 (the hardware view, an inference of the spec; log 15): the sub-blocks under the control signals of the raw word make exactly
the step of the decoded instruction, JALR with equal fields included. -/
def Obligations.DatapathRealisesEveryInstruction : Prop :=
  ∀ (w : Word) (s : State), datapath w s = exec (decode w) s

/-- R31, R34 (an inference of the spec): programs read neither `COUNT` nor `FAULT`. Two engines that differ only in them agree on registers,
memory, `pc` and `HALTED` after any number of steps. -/
def Obligations.CounterAndFaultAreInvisibleToPrograms : Prop :=
  ∀ (n : Nat) (s s' : State), s.regs = s'.regs → s.mem = s'.mem → s.pc = s'.pc → s.halted = s'.halted →
    ∃ t t', Sys2Proof.core.run n s = .next t ∧ Sys2Proof.core.run n s' = .next t' ∧
      t.regs = t'.regs ∧ t.mem = t'.mem ∧ t.pc = t'.pc ∧ t.halted = t'.halted

/-! ### Reset and the invariant -/

/-- R36 (`FAULT` is the spec's decision D3, log 3): what reset leaves. -/
def Obligations.ResetLeavesTheStatedValues : Prop :=
  (∀ r, State.reset.reg r = 0) ∧ (∀ addr, State.reset.cell addr = 0) ∧ State.reset.pc = 0 ∧ State.reset.halted = false ∧
    State.reset.count = 0 ∧ State.reset.fault = none

/-- R160, R36, R41, R161: for every image that fits, the full one and the empty one among them, construction fills memory with the image
from word 0 on and zeros after it, and leaves every register, `pc` and `COUNT` 0, `HALTED` false and `FAULT` None (the last is the spec's
decision D3, DEDUCED, log 3); a longer image is `ImageTooLarge` and gives no engine. -/
def Obligations.ConstructionLoadsTheImage : Prop :=
  ∀ image : List Word,
    (image.length ≤ 65536 → ∃ s, construct image = .engine s ∧
      (∀ i, i < 65536 → s.cell i = if h : i < image.length then image[i] else 0) ∧
      (∀ r, s.reg r = 0) ∧ s.pc = 0 ∧ s.halted = false ∧ s.count = 0 ∧ s.fault = none) ∧
    (65536 < image.length → construct image = .imageTooLarge)

/-- The invariant of the engine (canonical memory; a recorded fault is one the engine took) holds at reset. -/
def Obligations.InvariantHoldsAtReset : Prop :=
  State.reset.inv

/-- The invariant holds of every constructed engine. -/
def Obligations.InvariantHoldsAfterConstruction : Prop :=
  ∀ (image : List Word) (s : State), construct image = .engine s → s.inv

/-- Every step keeps the invariant: memory in canonical form (the model's representation, DESIGN CHOICE, log 1), inside the array (R40,
R44), and `FAULT` set only on a halted engine, with an address that is not legal (R32, R140, R142; that the record has a kind and an
address is the spec's decision D3, DEDUCED, log 3). That `pc` is this address after a fetch fault, and still a legal one after a load's or
a store's, rests on `pc` being unchanged by a fault: the spec's decision D4 (DEDUCED, log 4). -/
def Obligations.InvariantKeptByEveryStep : Prop :=
  ∀ s t : State, s.inv → step s = .next t → t.inv

/-! ### The host interface -/

/-- R88 (stopping at a fault: the spec's decision D15, log 9): `step_n(n)` leaves the state `n` steps leave and answers its `HALTED`. -/
def Obligations.StepNIsTheRunOfItsSteps : Prop :=
  ∀ (n : Nat) (s : State), ∃ t, Sys2Proof.core.run n s = .next t ∧ stepN n s = .next (t, t.halted)

/-- R180, R183, R184, R192: every request is answered, leaves a state in the invariant, and runs exactly the steps it asks for. `step`
runs one, leaves what `step` leaves and answers its outcome; `step_n(k)` leaves what `k` steps leave, as `stepN` does (which stops at a
fault: the spec's decision D15, log 9), and answers `HALTED`; an observer runs none and leaves the state as it is. That one port serves
them is the spec's decision D2 (log 13), and that a step's outcome is a function beside the step is the model's choice (log 16). -/
def Obligations.HostRequestsOnlyStepTheEngine : Prop :=
  ∀ (q : Request) (s : State), s.inv →
    ∃ t r, serve q s = .next (t, r) ∧ t.inv ∧
      (q = .step → step s = .next t ∧ Sys2Proof.core.run 1 s = .next t ∧ r = .outcome (stepOutcome s)) ∧
      (∀ k, q = .stepN k →
        Sys2Proof.core.run k s = .next t ∧ stepN k s = .next (t, t.halted) ∧ r = .halted t.halted) ∧
      (q.observes = true → t = s)

/-- R182, R185–R190: an observer changes nothing and answers, halted or not. `read_pc`, `read_instruction_count` and `read_fault` answer
`pc`, `COUNT` and `FAULT`; `read_register`, `read_memory_range` and `peek_instructions` answer what `readRegister`, `readMemoryRange` and
`peekInstructions` give, which the next three statements describe. `read_fault` is the spec's decision D16 and the errors are its
decisions D12, D13 and D14 (DEDUCED, log 8). -/
def Obligations.ObserversChangeNothing : Prop :=
  (∀ (q : Request) (s : State), q.observes = true → ∃ r, serve q s = .next (s, r)) ∧
  ∀ s : State,
    serve .readPc s = .next (s, .pc s.pc) ∧
    serve .readInstructionCount s = .next (s, .count s.count) ∧
    serve .readFault s = .next (s, .fault s.fault) ∧
    (∀ r, serve (.readRegister r) s = .next (s, .word (readRegister s r))) ∧
    (∀ start len, serve (.readMemoryRange start len) s = .next (s, .words (readMemoryRange s start len))) ∧
    ∀ n, serve (.peekInstructions n) s = .next (s, .instrs (peekInstructions s n))

/-- R185 (the error: the spec's decision D12, log 8): `read_register` answers the register for indices 0 to 7 and OutOfRange from 8 on. -/
def Obligations.ReadRegisterAnswersOrIsOutOfRange : Prop :=
  ∀ (s : State) (r : Nat),
    (∀ h : r < 8, readRegister s r = .value (s.reg ⟨r, h⟩)) ∧ (8 ≤ r → readRegister s r = .outOfRange)

/-- R186 (the window's bound: the spec's decision D13, log 8): `read_memory_range` answers the window's words in address order, or
OutOfRange exactly when the window ends above the array. -/
def Obligations.ReadMemoryRangeAnswersTheWindow : Prop :=
  ∀ (s : State) (start len : Nat),
    (start + len ≤ 65536 → ∃ l, readMemoryRange s start len = .value l ∧ l.length = len ∧
      ∀ i, i < len → l[i]? = some (s.cell (start + i))) ∧
    (65536 < start + len → readMemoryRange s start len = .outOfRange)

/-- R190 (the window's bound: the spec's decision D14, log 8): `peek_instructions` answers the addresses and decoded words of the window at
`pc`, or OutOfRange exactly when the window ends above the array. -/
def Obligations.PeekInstructionsDecodesTheWindow : Prop :=
  ∀ (s : State) (count : Nat),
    (s.pc.toNat + count ≤ 65536 → ∃ l, peekInstructions s count = .value l ∧ l.length = count ∧
      ∀ i, i < count → ∃ addr, addr.toNat = s.pc.toNat + i ∧ l[i]? = some (addr, decode (s.cell addr.toNat))) ∧
    (65536 < s.pc.toNat + count → peekInstructions s count = .outOfRange)
end

