-- ==== Sys2Proof/Laws/Decode.lean ====
section
/-! SUPPORT. The decoder form by form, and the encoder's fields. -/

namespace Sys2Proof

/-- Every opcode selects the form whose opcode it is (`30_encoding.md` R63). -/
theorem opcode_formOf (op : BitVec 3) : (formOf op).opcode = op := by
  revert op; decide

theorem formOf_opcode (form : Form) : formOf form.opcode = form := by
  cases form <;> rfl

@[simp] theorem form_build (form : Form) (f : Fields) : (build form f).form = form := by
  cases form <;> rfl

/-- The decoder in one line: the form's tagged value, built from the fields (R62). -/
theorem decode_eq_build (w : Word) : decode w = build (formOf (fieldsOf w).opcode) (fieldsOf w) := rfl

/-- The form of a decoded word is the one its opcode field selects (R63, R68). -/
theorem form_decode (w : Word) : (decode w).form = formOf (w.extractLsb' 22 3) := form_build _ _

/-- A register field by its mask: `(w >> lo) & 7` (R61). -/
theorem regField_val (w : Word) (lo : Nat) : (regField w lo).val = w.toNat / 2 ^ lo % 8 := by
  simp [regField, Nat.shiftRight_eq_div_pow]

/-- The opcode field by its mask: `(w >> 22) & 7` (R61). -/
theorem opcode_toNat (w : Word) : (fieldsOf w).opcode.toNat = w.toNat / 2 ^ 22 % 8 := by
  simp [fieldsOf, BitVec.extractLsb'_toNat, Nat.shiftRight_eq_div_pow]

/-- The signed reading of a sign-extended offset is that of the offset (R66). -/
theorem sext16_toInt (off : BitVec 16) : (sext16 off).toInt = off.toInt :=
  BitVec.toInt_signExtend_of_le (by decide)

theorem isOffset_sext16 (off : BitVec 16) : isOffset (sext16 off) = true := by
  have h1 := BitVec.le_toInt (x := off)
  have h2 := BitVec.toInt_lt (x := off)
  simp only [isOffset, sext16_toInt, decide_eq_true_eq]
  omega

/-- An immediate in the offset's range is the sign extension of its own low 16 bits (R66). -/
theorem sext16_of_isOffset {imm : Word} (h : isOffset imm = true) : sext16 (imm.setWidth 16) = imm := by
  simp only [isOffset, decide_eq_true_eq] at h
  apply BitVec.eq_of_toInt_eq
  rw [sext16_toInt, BitVec.toInt_setWidth]
  have e : imm.toInt = (imm.toNat : Int).bmod (2 ^ 32) := BitVec.toInt_eq_toNat_bmod imm
  have hlt := imm.isLt
  rw [Int.bmod_def] at e ⊢
  omega

/-- The opcode as the source's formula gives it, `(word >> 22) & 0b111` (R11, R61). -/
theorem opcode_by_mask (w : Word) : (w >>> 22 &&& 7).toNat = (fieldsOf w).opcode.toNat := by
  rw [opcode_toNat, BitVec.toNat_and, BitVec.toNat_ushiftRight, Nat.shiftRight_eq_div_pow]
  exact Nat.and_two_pow_sub_one_eq_mod _ 3

/-- The fields of the canonical word do not overlap: it is the sum of its fields, each at its place (R69). -/
theorem encodeWord_eq_sum (op : BitVec 3) (a b : Reg) (lo : BitVec 16) :
    encodeWord op a b lo =
      BitVec.ofNat 32 (op.toNat * 2 ^ 22 + a.val * 2 ^ 19 + b.val * 2 ^ 16 + lo.toNat) := by
  apply BitVec.eq_of_toNat_eq
  have hop := op.isLt
  have ha := a.isLt
  have hb := b.isLt
  have hlo := lo.isLt
  have place_op : (op.setWidth 32 <<< 22).toNat = op.toNat * 2 ^ 22 := by simp [Nat.shiftLeft_eq]; omega
  have place_a : (BitVec.ofNat 32 a.val <<< 19).toNat = a.val * 2 ^ 19 := by simp [Nat.shiftLeft_eq]; omega
  have place_b : (BitVec.ofNat 32 b.val <<< 16).toNat = b.val * 2 ^ 16 := by simp [Nat.shiftLeft_eq]; omega
  have place_lo : (lo.setWidth 32).toNat = lo.toNat := by simp; omega
  have join_a : op.toNat * 2 ^ 22 ||| a.val * 2 ^ 19 = op.toNat * 2 ^ 22 + a.val * 2 ^ 19 := by
    rw [← Nat.shiftLeft_eq, ← Nat.shiftLeft_add_eq_or_of_lt (by omega)]
  have join_b : op.toNat * 2 ^ 22 + a.val * 2 ^ 19 ||| b.val * 2 ^ 16 =
      op.toNat * 2 ^ 22 + a.val * 2 ^ 19 + b.val * 2 ^ 16 := by
    have high : op.toNat * 2 ^ 22 + a.val * 2 ^ 19 = (op.toNat * 8 + a.val) <<< 19 := by
      rw [Nat.shiftLeft_eq]; omega
    rw [high, ← Nat.shiftLeft_add_eq_or_of_lt (by omega)]
  have join_lo : op.toNat * 2 ^ 22 + a.val * 2 ^ 19 + b.val * 2 ^ 16 ||| lo.toNat =
      op.toNat * 2 ^ 22 + a.val * 2 ^ 19 + b.val * 2 ^ 16 + lo.toNat := by
    have high : op.toNat * 2 ^ 22 + a.val * 2 ^ 19 + b.val * 2 ^ 16 = (op.toNat * 64 + a.val * 8 + b.val) <<< 16 := by
      rw [Nat.shiftLeft_eq]; omega
    rw [high, ← Nat.shiftLeft_add_eq_or_of_lt (by omega)]
  simp only [encodeWord, BitVec.toNat_or, place_op, place_a, place_b, place_lo, join_a, join_b, join_lo, BitVec.toNat_ofNat]
  omega

/-- The decoder's fields of a canonical word are the fields it was made from (R69). -/
theorem fieldsOf_encodeWord (op : BitVec 3) (a b : Reg) (lo : BitVec 16) :
    fieldsOf (encodeWord op a b lo) = ⟨op, a, b, (lo.extractLsb' 0 3).toFin, lo, sext16 lo⟩ := by
  have hop := op.isLt
  have ha := a.isLt
  have hb := b.isLt
  have hlo := lo.isLt
  have hn : (encodeWord op a b lo).toNat = op.toNat * 2 ^ 22 + a.val * 2 ^ 19 + b.val * 2 ^ 16 + lo.toNat := by
    rw [encodeWord_eq_sum, BitVec.toNat_ofNat]; omega
  generalize encodeWord op a b lo = w at hn
  have hOp : w.extractLsb' 22 3 = op := by
    apply BitVec.eq_of_toNat_eq
    have := opcode_toNat w
    simp only [fieldsOf] at this
    rw [this, hn]; omega
  have hOff : w.extractLsb' 0 16 = lo := by
    apply BitVec.eq_of_toNat_eq
    simp [hn]; omega
  have hA : regField w 19 = a := by apply Fin.ext; rw [regField_val, hn]; omega
  have hB : regField w 16 = b := by apply Fin.ext; rw [regField_val, hn]; omega
  have hD : regField w 0 = (lo.extractLsb' 0 3).toFin := by
    apply Fin.ext; rw [regField_val, hn]; simp; omega
  simp only [fieldsOf, hOp, hOff, hA, hB, hD]

/-- A destination field placed in the low bits is read back (R61). -/
theorem dstReg_of_low (d : Reg) : ((BitVec.ofNat 16 d.val).extractLsb' 0 3).toFin = d := by
  revert d; decide

end Sys2Proof
end

