-- ==== Sys2Proof/Laws/State.lean ====
section
/-! SUPPORT. One lemma for each field and each update of the state, so that no later proof unfolds a record update. -/

namespace Sys2Proof.Machine

variable (s : State) (r d : Reg) (v : Word) (a : Nat) (f : FaultRecord)

/-! ### Writing a register -/

@[simp] theorem State.setReg_reg_same : (s.setReg d v).reg d = v := by
  simp [State.setReg, State.reg]

theorem State.setReg_reg_of_ne (h : r ≠ d) : (s.setReg d v).reg r = s.reg r := by
  have h' : d.val ≠ r.val := fun e => h (Fin.ext e.symm)
  simp [State.setReg, State.reg, Vector.getElem_set_ne, h']

theorem State.setReg_reg : (s.setReg d v).reg r = if r = d then v else s.reg r := by
  split
  · next h => subst h; simp
  · next h => exact s.setReg_reg_of_ne r d v h

@[simp] theorem State.setReg_mem : (s.setReg d v).mem = s.mem := rfl
@[simp] theorem State.setReg_cell : (s.setReg d v).cell a = s.cell a := rfl
@[simp] theorem State.setReg_pc : (s.setReg d v).pc = s.pc := rfl
@[simp] theorem State.setReg_link : (s.setReg d v).link = s.link := rfl
@[simp] theorem State.setReg_halted : (s.setReg d v).halted = s.halted := rfl
@[simp] theorem State.setReg_count : (s.setReg d v).count = s.count := rfl
@[simp] theorem State.setReg_fault : (s.setReg d v).fault = s.fault := rfl

/-! ### Setting and advancing the pc -/

@[simp] theorem State.setPc_regs : (s.setPc v).regs = s.regs := rfl
@[simp] theorem State.setPc_reg : (s.setPc v).reg r = s.reg r := rfl
@[simp] theorem State.setPc_mem : (s.setPc v).mem = s.mem := rfl
@[simp] theorem State.setPc_cell : (s.setPc v).cell a = s.cell a := rfl
@[simp] theorem State.setPc_pc : (s.setPc v).pc = v := rfl
@[simp] theorem State.setPc_halted : (s.setPc v).halted = s.halted := rfl
@[simp] theorem State.setPc_count : (s.setPc v).count = s.count := rfl
@[simp] theorem State.setPc_fault : (s.setPc v).fault = s.fault := rfl

@[simp] theorem State.advance_regs : s.advance.regs = s.regs := rfl
@[simp] theorem State.advance_reg : s.advance.reg r = s.reg r := rfl
@[simp] theorem State.advance_mem : s.advance.mem = s.mem := rfl
@[simp] theorem State.advance_cell : s.advance.cell a = s.cell a := rfl
@[simp] theorem State.advance_pc : s.advance.pc = s.pc + 1 := rfl
@[simp] theorem State.advance_halted : s.advance.halted = s.halted := rfl
@[simp] theorem State.advance_count : s.advance.count = s.count := rfl
@[simp] theorem State.advance_fault : s.advance.fault = s.fault := rfl

/-! ### Counting, halting and taking a fault -/

@[simp] theorem State.retire_regs : s.retire.regs = s.regs := rfl
@[simp] theorem State.retire_reg : s.retire.reg r = s.reg r := rfl
@[simp] theorem State.retire_mem : s.retire.mem = s.mem := rfl
@[simp] theorem State.retire_cell : s.retire.cell a = s.cell a := rfl
@[simp] theorem State.retire_pc : s.retire.pc = s.pc := rfl
@[simp] theorem State.retire_halted : s.retire.halted = s.halted := rfl
@[simp] theorem State.retire_count : s.retire.count = s.count + 1 := rfl
@[simp] theorem State.retire_fault : s.retire.fault = s.fault := rfl

@[simp] theorem State.halt_regs : s.halt.regs = s.regs := rfl
@[simp] theorem State.halt_reg : s.halt.reg r = s.reg r := rfl
@[simp] theorem State.halt_mem : s.halt.mem = s.mem := rfl
@[simp] theorem State.halt_cell : s.halt.cell a = s.cell a := rfl
@[simp] theorem State.halt_pc : s.halt.pc = s.pc := rfl
@[simp] theorem State.halt_halted : s.halt.halted = true := rfl
@[simp] theorem State.halt_count : s.halt.count = s.count := rfl
@[simp] theorem State.halt_fault : s.halt.fault = s.fault := rfl

@[simp] theorem State.takeMemoryFault_regs : (s.takeMemoryFault f).regs = s.regs := rfl
@[simp] theorem State.takeMemoryFault_reg : (s.takeMemoryFault f).reg r = s.reg r := rfl
@[simp] theorem State.takeMemoryFault_mem : (s.takeMemoryFault f).mem = s.mem := rfl
@[simp] theorem State.takeMemoryFault_cell : (s.takeMemoryFault f).cell a = s.cell a := rfl
@[simp] theorem State.takeMemoryFault_pc : (s.takeMemoryFault f).pc = s.pc := rfl
@[simp] theorem State.takeMemoryFault_halted : (s.takeMemoryFault f).halted = true := rfl
@[simp] theorem State.takeMemoryFault_count : (s.takeMemoryFault f).count = s.count := rfl
@[simp] theorem State.takeMemoryFault_fault : (s.takeMemoryFault f).fault = some f := rfl

end Sys2Proof.Machine
end

