-- ==== Sys2Proof/Laws/Memory.lean ====
section
/-! SUPPORT. The memory array: reading after writing, the canonical form, and the primitives' two cases (`20_memory.md` R44, R49). -/

namespace Sys2Proof.Machine

/-! ### Reading -/

@[simp] theorem Memory.read_nil (a : Nat) : Memory.read [] a = Memory.unlisted := rfl

theorem Memory.read_cons (b : Nat) (w : Word) (m : Memory) (a : Nat) :
    Memory.read ((b, w) :: m) a = if a = b then w else m.read a := rfl

/-- A memory without cell `a` in its list reads zero there. -/
theorem Memory.read_of_not_listed {m : Memory} {a : Nat} (h : ∀ c ∈ m, c.1 ≠ a) : m.read a = Memory.unlisted := by
  induction m with
  | nil => rfl
  | cons c m ih =>
    obtain ⟨b, w⟩ := c
    have hb : a ≠ b := fun e => h (b, w) (by simp) e.symm
    rw [Memory.read_cons, if_neg hb]
    exact ih fun c hc => h c (List.mem_cons_of_mem _ hc)

/-! ### Writing -/

theorem Memory.read_push {m : Memory} {a : Nat} (v : Word) (h : ∀ c ∈ m, c.1 ≠ a) (x : Nat) :
    (Memory.push a v m).read x = if x = a then v else m.read x := by
  unfold Memory.push
  split
  · next hv =>
    split
    · next hx => subst hx; rw [Memory.read_of_not_listed h, hv]
    · rfl
  · rw [Memory.read_cons]

theorem Memory.mem_push {m : Memory} {a : Nat} {v : Word} {c : Cell} (h : c ∈ Memory.push a v m) :
    c = (a, v) ∧ v ≠ Memory.unlisted ∨ c ∈ m := by
  unfold Memory.push at h
  split at h
  · exact .inr h
  · next hv =>
    rcases List.mem_cons.mp h with h | h
    · exact .inl ⟨h, hv⟩
    · exact .inr h

/-- Every address of a memory after a write is the one written or one listed before. -/
theorem Memory.mem_write {m : Memory} {a : Nat} {v : Word} {c : Cell} (h : c ∈ m.write a v) :
    c = (a, v) ∧ v ≠ Memory.unlisted ∨ c ∈ m := by
  induction m with
  | nil => exact Memory.mem_push h
  | cons d m ih =>
    obtain ⟨b, w⟩ := d
    unfold Memory.write at h
    split at h
    · exact Memory.mem_push h
    · split at h
      · exact (Memory.mem_push h).imp_right (List.mem_cons_of_mem _)
      · rcases List.mem_cons.mp h with h | h
        · exact .inr (h ▸ List.mem_cons_self)
        · exact (ih h).imp_right (List.mem_cons_of_mem _)

theorem Memory.push_wf {m : Memory} {a : Nat} {v : Word} (hm : m.wf) (ha : a < Config.memWords)
    (hlt : ∀ c ∈ m, a < c.1) : (Memory.push a v m).wf := by
  refine ⟨?_, fun c hc => ?_⟩
  · unfold Memory.push
    split
    · exact hm.1
    · exact List.pairwise_cons.mpr ⟨hlt, hm.1⟩
  · rcases Memory.mem_push hc with ⟨rfl, hv⟩ | hc
    · exact ⟨ha, hv⟩
    · exact hm.2 c hc

/-- The tail of a memory in canonical form is in canonical form, and every address of it is above the head's. -/
theorem Memory.wf_tail {b : Nat} {w : Word} {m : Memory} (h : Memory.wf ((b, w) :: m)) :
    m.wf ∧ b < Config.memWords ∧ w ≠ Memory.unlisted ∧ ∀ c ∈ m, b < c.1 := by
  obtain ⟨hp, hc⟩ := h
  obtain ⟨hb, hm⟩ := List.pairwise_cons.mp hp
  exact ⟨⟨hm, fun c h => hc c (List.mem_cons_of_mem _ h)⟩, (hc (b, w) (by simp)).1, (hc (b, w) (by simp)).2, hb⟩

/-- A write to a cell of the array keeps the canonical form. -/
theorem Memory.write_wf {m : Memory} (hm : m.wf) {a : Nat} (ha : a < Config.memWords) (v : Word) :
    (m.write a v).wf := by
  induction m with
  | nil => exact Memory.push_wf hm ha (by simp)
  | cons d m ih =>
    obtain ⟨b, w⟩ := d
    obtain ⟨hm', hb, hw, hlt⟩ := Memory.wf_tail hm
    unfold Memory.write
    split
    · next hab =>
      refine Memory.push_wf hm ha fun c hc => ?_
      rcases List.mem_cons.mp hc with rfl | hc
      · exact hab
      · exact lt_trans hab (hlt c hc)
    · split
      · next hab => subst hab; exact Memory.push_wf hm' ha hlt
      · next hlt' hne =>
        have hwf := ih hm'
        refine ⟨List.pairwise_cons.mpr ⟨fun c hc => ?_, hwf.1⟩, fun c hc => ?_⟩
        · rcases Memory.mem_write hc with ⟨rfl, -⟩ | hc
          · show b < a; omega
          · exact hlt c hc
        · rcases List.mem_cons.mp hc with rfl | hc
          · exact ⟨hb, hw⟩
          · exact hwf.2 c hc

/-- A read after a write gives the word written at the address written, and the old word everywhere else (R49). -/
theorem Memory.read_write {m : Memory} (hm : m.wf) (a : Nat) (v : Word) (x : Nat) :
    (m.write a v).read x = if x = a then v else m.read x := by
  induction m with
  | nil => exact Memory.read_push v (by simp) x
  | cons d m ih =>
    obtain ⟨b, w⟩ := d
    obtain ⟨hm', -, -, hlt⟩ := Memory.wf_tail hm
    unfold Memory.write
    split
    · next hab =>
      refine Memory.read_push v (fun c hc => ?_) x
      rcases List.mem_cons.mp hc with rfl | hc
      · exact (ne_of_lt hab).symm
      · exact (ne_of_lt (lt_trans hab (hlt c hc))).symm
    · split
      · next hab =>
        subst hab
        rw [Memory.read_push v (fun c hc => (ne_of_lt (hlt c hc)).symm), Memory.read_cons]
        split <;> simp_all
      · next hne =>
        rw [Memory.read_cons, Memory.read_cons, ih hm']
        split
        · next hx => subst hx; rw [if_neg (fun e => hne e.symm)]
        · rfl

/-! ### An image -/

theorem Memory.ofWords_lt {base : Nat} {vs : List Word} {c : Cell} (h : c ∈ Memory.ofWords base vs) : base ≤ c.1 := by
  induction vs generalizing base with
  | nil => simp [Memory.ofWords] at h
  | cons v vs ih =>
    rcases Memory.mem_push h with ⟨rfl, -⟩ | h
    · exact le_refl _
    · exact le_trans (Nat.le_succ _) (ih h)

/-- The memory made from words that fit in the array is in canonical form. -/
theorem Memory.ofWords_wf {base : Nat} {vs : List Word} (h : base + vs.length ≤ Config.memWords) :
    (Memory.ofWords base vs).wf := by
  induction vs generalizing base with
  | nil => exact ⟨List.Pairwise.nil, by simp [Memory.ofWords]⟩
  | cons v vs ih =>
    rw [List.length_cons] at h
    exact Memory.push_wf (ih (by omega)) (by omega) fun c hc => Memory.ofWords_lt hc

/-- The memory made from words reads each word at its place and zero elsewhere (R41). -/
theorem Memory.read_ofWords (base : Nat) (vs : List Word) (x : Nat) :
    (Memory.ofWords base vs).read x = if base ≤ x then vs.getD (x - base) Memory.unlisted else Memory.unlisted := by
  induction vs generalizing base with
  | nil => simp [Memory.ofWords]
  | cons v vs ih =>
    have hne : ∀ c ∈ Memory.ofWords (base + 1) vs, c.1 ≠ base := fun c hc => by
      have := Memory.ofWords_lt hc; omega
    rw [Memory.ofWords, Memory.read_push v hne, ih]
    rcases lt_trichotomy x base with h | h | h
    · rw [if_neg (by omega), if_neg (by omega), if_neg (by omega)]
    · subst h; simp
    · rw [if_neg (by omega), if_pos (by omega), if_pos (by omega)]
      obtain ⟨k, rfl⟩ : ∃ k, x = base + 1 + k := ⟨x - (base + 1), by omega⟩
      have e1 : base + 1 + k - (base + 1) = k := by omega
      have e2 : base + 1 + k - base = k + 1 := by omega
      rw [e1, e2, List.getD_cons_succ]

/-! ### Equal memories are equal data -/

/-- Two memories in canonical form that read the same at every address are the same list. -/
theorem Memory.eq_of_read_eq {m n : Memory} (hm : m.wf) (hn : n.wf) (h : ∀ a, m.read a = n.read a) : m = n := by
  induction m generalizing n with
  | nil =>
    cases n with
    | nil => rfl
    | cons c n =>
      obtain ⟨b, w⟩ := c
      have hb := h b
      rw [Memory.read_nil, Memory.read_cons, if_pos rfl] at hb
      exact absurd hb.symm (Memory.wf_tail hn).2.2.1
  | cons c m ih =>
    obtain ⟨b, w⟩ := c
    obtain ⟨hm', -, hw, hlt⟩ := Memory.wf_tail hm
    cases n with
    | nil =>
      have hb := h b
      rw [Memory.read_nil, Memory.read_cons, if_pos rfl] at hb
      exact absurd hb hw
    | cons c' n =>
      obtain ⟨b', w'⟩ := c'
      obtain ⟨hn', -, hw', hlt'⟩ := Memory.wf_tail hn
      have below : ∀ {x : Nat} {l : Memory}, (∀ c ∈ l, x < c.1) → l.read x = Memory.unlisted :=
        fun hl => Memory.read_of_not_listed fun c hc => (ne_of_lt (hl c hc)).symm
      have hbb : b = b' := by
        rcases lt_trichotomy b b' with hl | he | hl
        · have hb := h b
          rw [Memory.read_cons, if_pos rfl, Memory.read_cons, if_neg (ne_of_lt hl),
            below fun c hc => lt_trans hl (hlt' c hc)] at hb
          exact absurd hb hw
        · exact he
        · have hb := h b'
          rw [Memory.read_cons, if_neg (ne_of_lt hl), Memory.read_cons, if_pos rfl,
            below fun c hc => lt_trans hl (hlt c hc)] at hb
          exact absurd hb.symm hw'
      subst hbb
      have hww : w = w' := by simpa [Memory.read_cons] using h b
      subst hww
      refine congrArg _ (ih hm' hn' fun a => ?_)
      by_cases hab : a = b
      · subst hab; rw [below hlt, below hlt']
      · simpa [Memory.read_cons, hab] using h a

/-! ### The primitives -/

theorem legal_iff (addr : Word) : legal addr = true ↔ addr.toNat < Config.memWords := by
  simp [legal]

theorem legal_eq_false_iff (addr : Word) : legal addr = false ↔ Config.memWords ≤ addr.toNat := by
  simp [legal]

/-- `MemRead` answers the cell's word on a legal address, else the fault (R44). -/
theorem State.memRead_cases {s : State} {kind : AccessKind} {addr : Word} :
    (addr.toNat < Config.memWords ∧ s.memRead kind addr = .ok (s.cell addr.toNat)) ∨
      (Config.memWords ≤ addr.toNat ∧ s.memRead kind addr = .error ⟨kind, addr⟩) := by
  unfold State.memRead
  split
  · next h => exact .inl ⟨(legal_iff _).mp h, rfl⟩
  · next h => exact .inr ⟨(legal_eq_false_iff _).mp (by simpa using h), rfl⟩

/-- `MemWrite` writes the one cell on a legal address, else raises the fault (R44). -/
theorem State.memWrite_cases {s : State} {kind : AccessKind} {addr v : Word} :
    (addr.toNat < Config.memWords ∧ s.memWrite kind addr v = .ok { s with mem := s.mem.write addr.toNat v }) ∨
      (Config.memWords ≤ addr.toNat ∧ s.memWrite kind addr v = .error ⟨kind, addr⟩) := by
  unfold State.memWrite
  split
  · next h => exact .inl ⟨(legal_iff _).mp h, rfl⟩
  · next h => exact .inr ⟨(legal_eq_false_iff _).mp (by simpa using h), rfl⟩

theorem Memory.reset_wf : State.reset.mem.wf := ⟨List.Pairwise.nil, by simp [State.reset]⟩

end Sys2Proof.Machine
end

