-- ==== Sys2Proof/Laws/Exec.lean ====
section
/-! SUPPORT. What an executed instruction and a step can do, said once (`40_step.md` R81). -/

namespace Sys2Proof.Machine

/-! ### An executed instruction -/

/-- The frame of R81: the body's writes are committed and counted, HALT halts, and a fault is taken from the state before. -/
theorem exec_eq (i : Instr) (s : State) :
    exec i s = match bodyOf i s with
      | .ok t => .next (if i = .halt then t.retire.halt else t.retire)
      | .error f => .next (s.takeMemoryFault f) := by
  cases i <;> rfl

/-- An instruction's body can raise a fault only if it is LW or SW and its effective address is not legal (R141). -/
theorem bodyOf_error {i : Instr} {s : State} {f : FaultRecord} (h : bodyOf i s = .error f) :
    ∃ a b imm, Config.memWords ≤ (s.effAddr a imm).toNat ∧
      (i = .lw a b imm ∧ f = ⟨.load, s.effAddr a imm⟩ ∨ i = .sw a b imm ∧ f = ⟨.store, s.effAddr a imm⟩) := by
  cases i with
  | lw a b imm =>
    rcases State.memRead_cases (s := s) (kind := .load) (addr := s.effAddr a imm) with ⟨-, e⟩ | ⟨hge, e⟩
    · simp [bodyOf, bodyLw, e] at h
    · simp [bodyOf, bodyLw, e] at h
      exact ⟨a, b, imm, hge, .inl ⟨rfl, h.symm⟩⟩
  | sw a b imm =>
    rcases State.memWrite_cases (s := s) (kind := .store) (addr := s.effAddr a imm) (v := s.reg b) with ⟨-, e⟩ | ⟨hge, e⟩
    · simp [bodyOf, bodySw, e] at h
    · simp [bodyOf, bodySw, e] at h
      exact ⟨a, b, imm, hge, .inr ⟨rfl, h.symm⟩⟩
  | beq a b imm => simp only [bodyOf, bodyBeq] at h; split at h <;> cases h
  | _ => cases h

/-- LW's body on a legal address. -/
theorem bodyLw_ok {a b : Reg} {imm : Word} {s : State} (h : (s.effAddr a imm).toNat < Config.memWords) :
    bodyLw a b imm s = .ok (s.setReg b (s.cell (s.effAddr a imm).toNat)).advance := by
  simp [bodyLw, State.memRead, (legal_iff _).mpr h]

/-- SW's body on a legal address. -/
theorem bodySw_ok {a b : Reg} {imm : Word} {s : State} (h : (s.effAddr a imm).toNat < Config.memWords) :
    bodySw a b imm s = .ok ({ s with mem := s.mem.write (s.effAddr a imm).toNat (s.reg b) } : State).advance := by
  simp [bodySw, State.memWrite, (legal_iff _).mpr h]

/-- LW's body on an address that is not legal. -/
theorem bodyLw_error {a b : Reg} {imm : Word} {s : State} (h : Config.memWords ≤ (s.effAddr a imm).toNat) :
    bodyLw a b imm s = .error ⟨.load, s.effAddr a imm⟩ := by
  simp [bodyLw, State.memRead, (legal_eq_false_iff _).mpr h]

/-- SW's body on an address that is not legal. -/
theorem bodySw_error {a b : Reg} {imm : Word} {s : State} (h : Config.memWords ≤ (s.effAddr a imm).toNat) :
    bodySw a b imm s = .error ⟨.store, s.effAddr a imm⟩ := by
  simp [bodySw, State.memWrite, (legal_eq_false_iff _).mpr h]

/-- A body that completes touches no status state, and its memory is the old one but for a store to a legal address. -/
theorem bodyOf_ok {i : Instr} {s t : State} (h : bodyOf i s = .ok t) :
    t.halted = s.halted ∧ t.count = s.count ∧ t.fault = s.fault ∧
      (t.mem = s.mem ∨ ∃ a b imm, i = .sw a b imm ∧ (s.effAddr a imm).toNat < Config.memWords ∧
        t.mem = s.mem.write (s.effAddr a imm).toNat (s.reg b)) := by
  cases i with
  | lw a b imm =>
    rcases State.memRead_cases (s := s) (kind := .load) (addr := s.effAddr a imm) with ⟨-, e⟩ | ⟨-, e⟩ <;>
      simp [bodyOf, bodyLw, e] at h
    subst h; simp
  | sw a b imm =>
    rcases State.memWrite_cases (s := s) (kind := .store) (addr := s.effAddr a imm) (v := s.reg b) with ⟨hlt, e⟩ | ⟨-, e⟩ <;>
      simp [bodyOf, bodySw, e] at h
    subst h
    exact ⟨rfl, rfl, rfl, .inr ⟨a, b, imm, rfl, hlt, rfl⟩⟩
  | beq a b imm => simp only [bodyOf, bodyBeq] at h; split at h <;> cases h <;> simp
  | _ => cases h; simp

/-! ### A step -/

theorem step_of_halted {s : State} (h : s.halted = true) : step s = .next s := by simp [step, h]

theorem step_of_fetch_fault {s : State} (h : s.halted = false) (hpc : Config.memWords ≤ s.pc.toNat) :
    step s = .next (s.takeMemoryFault ⟨.fetch, s.pc⟩) := by
  simp [step, h, State.fetch, State.memRead, (legal_eq_false_iff _).mpr hpc]

theorem step_of_running {s : State} (h : s.halted = false) (hpc : s.pc.toNat < Config.memWords) :
    step s = exec (decode (s.cell s.pc.toNat)) s := by
  simp [step, h, State.fetch, State.memRead, (legal_iff _).mpr hpc]

/-- Everything a step can do (R81): nothing, on a halted engine; a fetch fault; a fault of the instruction at `pc`; or the completed
body of the instruction at `pc`, counted. -/
theorem step_cases {s t : State} (h : step s = .next t) :
    (s.halted = true ∧ t = s) ∨
    (s.halted = false ∧ Config.memWords ≤ s.pc.toNat ∧ t = s.takeMemoryFault ⟨.fetch, s.pc⟩) ∨
    (s.halted = false ∧ s.pc.toNat < Config.memWords ∧
      ∃ f, bodyOf (decode (s.cell s.pc.toNat)) s = .error f ∧ t = s.takeMemoryFault f) ∨
    (s.halted = false ∧ s.pc.toNat < Config.memWords ∧
      ∃ u, bodyOf (decode (s.cell s.pc.toNat)) s = .ok u ∧
        t = if decode (s.cell s.pc.toNat) = .halt then u.retire.halt else u.retire) := by
  cases hh : s.halted with
  | true => rw [step_of_halted hh] at h; cases h; exact .inl ⟨rfl, rfl⟩
  | false =>
    rcases Nat.lt_or_ge s.pc.toNat Config.memWords with hpc | hpc
    · rw [step_of_running hh hpc, exec_eq] at h
      cases hb : bodyOf (decode (s.cell s.pc.toNat)) s with
      | ok u => rw [hb] at h; cases h; exact .inr (.inr (.inr ⟨rfl, hpc, u, rfl, rfl⟩))
      | error f => rw [hb] at h; cases h; exact .inr (.inr (.inl ⟨rfl, hpc, f, rfl, rfl⟩))
    · rw [step_of_fetch_fault hh hpc] at h; cases h; exact .inr (.inl ⟨rfl, hpc, rfl⟩)

/-! ### The outcome of a step -/

theorem stepOutcome_of_halted {s : State} (h : s.halted = true) : stepOutcome s = .alreadyHalted := by simp [stepOutcome, h]

theorem stepOutcome_of_fetch_fault {s : State} (h : s.halted = false) (hpc : Config.memWords ≤ s.pc.toNat) :
    stepOutcome s = .memoryFault ⟨.fetch, s.pc⟩ := by
  simp [stepOutcome, h, State.fetch, State.memRead, (legal_eq_false_iff _).mpr hpc]

theorem stepOutcome_of_running {s : State} (h : s.halted = false) (hpc : s.pc.toNat < Config.memWords) :
    stepOutcome s = instrOutcome (decode (s.cell s.pc.toNat)) s := by
  simp [stepOutcome, h, State.fetch, State.memRead, (legal_iff _).mpr hpc]

/-- An instruction answers `MemoryFault` exactly when its body raises it. -/
theorem instrOutcome_memoryFault_iff {i : Instr} {s : State} {f : FaultRecord} :
    instrOutcome i s = .memoryFault f ↔ bodyOf i s = .error f := by
  unfold instrOutcome
  split
  · next h => simp [h]
  · next h => simp only [h, reduceCtorEq, iff_false]; split <;> simp

/-- A step that answers Continued or HaltedThisStep completed the body of the instruction at `pc`. -/
theorem step_completed {s t : State} (h : step s = .next t)
    (ho : stepOutcome s = .continued ∨ stepOutcome s = .haltedThisStep) :
    s.halted = false ∧ s.pc.toNat < Config.memWords ∧ ∃ u, bodyOf (decode (s.cell s.pc.toNat)) s = .ok u ∧
      t = if decode (s.cell s.pc.toNat) = .halt then u.retire.halt else u.retire := by
  rcases step_cases h with ⟨hh, -⟩ | ⟨hh, hpc, rfl⟩ | ⟨hh, hpc, f, hb, rfl⟩ | ⟨hh, hpc, u, hb, rfl⟩
  · simp [stepOutcome_of_halted hh] at ho
  · simp [stepOutcome_of_fetch_fault hh hpc] at ho
  · simp [stepOutcome_of_running hh hpc, instrOutcome_memoryFault_iff.mpr hb] at ho
  · exact ⟨hh, hpc, u, hb, rfl⟩

/-! ### Runs -/

theorem run_succ_of_step (M : Host.Core) {n : Nat} {s t : M.State} (h : M.step s = .next t) : M.run (n + 1) s = M.run n t := by
  simp only [Host.Core.run, h]

/-- A run of `n + 1` steps is a step and a run of `n`. -/
theorem run_succ {n : Nat} {s t : State} (h : step s = .next t) :
    Sys2Proof.core.run (n + 1) s = Sys2Proof.core.run n t :=
  run_succ_of_step Sys2Proof.core h

/-! ### Placing an instruction -/

/-- Placing an instruction word makes the next step run exactly the instruction it decodes to. -/
theorem step_withFetchWord {s : State} (hm : s.mem.wf) (nbits w : Nat) :
    step (s.withFetchWord nbits w) = exec (decode (tableWord nbits w)) (s.withFetchWord nbits w) := by
  have hpc : (s.withFetchWord nbits w).pc.toNat < Config.memWords := by
    unfold State.withFetchWord
    cases hl : legal s.pc with
    | true => simpa [hl] using (legal_iff _).mp hl
    | false => simp [Config.memWords]
  rw [step_of_running rfl hpc]
  have hread : (s.withFetchWord nbits w).cell (s.withFetchWord nbits w).pc.toNat = tableWord nbits w := by
    show Memory.read (s.mem.write _ _) _ = _
    rw [Memory.read_write hm]
    simp [State.withFetchWord]
  rw [hread]

end Sys2Proof.Machine
end

