-- ==== Sys2Proof/Laws/PerInstr.lean ====
section
/-! SUPPORT. Families of facts about every instruction as syntax, one lemma for each constructor. -/

namespace Sys2Proof.Laws.EncodeOpcode

open Sys2Proof

/-- The encoder writes the form's opcode to bits 24–22 and zeros above them (`30_encoding.md` R61, R69). -/
def Statement (i : Instr) : Prop := (encode i) >>> 22 = i.form.opcode.setWidth 32

/-- The word of `encodeWord` above bit 21 is its opcode. -/
theorem encodeWord_high (op : BitVec 3) (a b : Reg) (lo : BitVec 16) :
    encodeWord op a b lo >>> 22 = op.setWidth 32 := by
  have ha : BitVec.ofNat 32 a.val <<< 19 >>> 22 = 0#32 := by revert a; decide
  have hb : BitVec.ofNat 32 b.val <<< 16 >>> 22 = 0#32 := by revert b; decide
  have hlo : lo.setWidth 32 >>> 22 = 0#32 := by
    apply BitVec.eq_of_toNat_eq
    have := lo.isLt
    simp only [BitVec.toNat_ushiftRight, BitVec.toNat_setWidth, Nat.shiftRight_eq_div_pow, BitVec.toNat_ofNat]
    omega
  have hop : op.setWidth 32 <<< 22 >>> 22 = op.setWidth 32 := by revert op; decide
  simp [encodeWord, BitVec.ushiftRight_or_distrib, ha, hb, hlo, hop]

theorem add (a b d : Reg) : Statement (.add a b d) := encodeWord_high _ _ _ _
theorem nor (a b d : Reg) : Statement (.nor a b d) := encodeWord_high _ _ _ _
theorem lw (a b : Reg) (imm : Word) : Statement (.lw a b imm) := encodeWord_high _ _ _ _
theorem sw (a b : Reg) (imm : Word) : Statement (.sw a b imm) := encodeWord_high _ _ _ _
theorem beq (a b : Reg) (imm : Word) : Statement (.beq a b imm) := encodeWord_high _ _ _ _
theorem jalr (a b : Reg) : Statement (.jalr a b) := encodeWord_high _ _ _ _
theorem halt : Statement .halt := encodeWord_high _ _ _ _
theorem noop : Statement .noop := encodeWord_high _ _ _ _

end Sys2Proof.Laws.EncodeOpcode
end

