-- ==== Sys2Proof/Tests/Slice0.lean ====
section
/-! SUPPORT. The model's own tests. Every expected result comes from `spec/`: the encodings of `30_encoding.md`, the instructions'
worked examples and corner cases, and the vectors of `95_test_vectors.md` (E1–E10, sections 2 and 3). After them, for each statement
with hypotheses, states that meet them. -/

namespace Sys2Proof.Tests

open Sys2Proof Sys2Proof.Machine

/-- A running state with `r1`, `r2` and `pc` given, every other register 0, and the listed memory. -/
def st (pc r1 r2 : Word) (mem : Memory := []) : State :=
  { State.reset with regs := #v[0, r1, r2, 0, 0, 0, 0, 0], pc := pc, mem := mem }

/-- The next state, where there is one. -/
def nextOf : Host.Outcome State Fault Refusal → Option State
  | .next t => some t
  | _ => none

/-- One field or more of the state an instruction leaves. -/
def after {α : Type} (i : Instr) (s : State) (f : State → α) : Option α := (nextOf (exec i s)).map f

/-- One field or more of the state a step leaves. -/
def afterStep {α : Type} (s : State) (f : State → α) : Option α := (nextOf (step s)).map f

/-! ### WellFormed: an ill-formed term for each check (R66) -/

theorem test_lw_offset_above_range_refused : (Instr.lw 0 1 32768).wellFormed = false := by decide
theorem test_lw_offset_below_range_refused : (Instr.lw 0 1 (BitVec.ofInt 32 (-32769))).wellFormed = false := by decide
theorem test_sw_offset_above_range_refused : (Instr.sw 0 1 32768).wellFormed = false := by decide
theorem test_beq_offset_above_range_refused : (Instr.beq 0 1 32768).wellFormed = false := by decide
theorem test_offset_range_ends_accepted :
    (Instr.lw 0 1 32767).wellFormed = true ∧ (Instr.beq 0 1 (BitVec.ofInt 32 (-32768))).wellFormed = true := by decide

/-! ### Decoding: every constructor from a word written bit by bit (R61, R64; `95_test_vectors.md` section 2) -/

theorem test_decode_add : decode 0b00000000000010100000000000000011 = .add 1 2 3 := by decide
theorem test_decode_add_ignored_bits : decode 0xFE0A0003 = .add 1 2 3 ∧ decode 0x000AFFFB = .add 1 2 3 := by decide
theorem test_decode_nor : decode 0b00000000010010100000000000000011 = .nor 1 2 3 := by decide
theorem test_decode_lw : decode 0b00000000100000011111111111111111 = .lw 0 1 0xFFFFFFFF := by decide
theorem test_decode_lw_offset_ends : decode 0x00818000 = .lw 0 1 0xFFFF8000 ∧ decode 0x00817FFF = .lw 0 1 0x00007FFF := by decide
theorem test_decode_sw : decode 0b00000000110000110000000000000111 = .sw 0 3 7 := by decide
theorem test_decode_beq : decode 0b00000001000000001111111111111101 = .beq 0 0 0xFFFFFFFD := by decide
theorem test_decode_jalr : decode 0b00000001010010100000000000000000 = .jalr 1 2 ∧ decode 0x014A1234 = .jalr 1 2 := by decide
theorem test_decode_halt : decode 0b00000001100000000000000000000000 = .halt ∧ decode 0x01BFFFFF = .halt ∧
    decode 0x7F800000 = .halt := by decide
theorem test_decode_noop : decode 0b00000001110000000000000000000000 = .noop ∧ decode 0xFFFFFFFF = .noop := by decide
/-- R71: the zero word is `ADD r0, r0, r0`. -/
theorem test_decode_zero_word : decode 0 = .add 0 0 0 := by decide
/-- E10, C2: the mislabelled word is `LW r0, r2, 0`. -/
theorem test_decode_section_8_word : decode 0x00820000 = .lw 0 2 0 := by decide
/-- E1: the opcode table's words, through the table's numbering. -/
theorem test_decode_table_words :
    decodeTableWord 32 0x00000000 = some (.add 0 0 0) ∧ decodeTableWord 32 0x00400000 = some (.nor 0 0 0) ∧
    decodeTableWord 32 0x00800000 = some (.lw 0 0 0) ∧ decodeTableWord 32 0x00C00000 = some (.sw 0 0 0) ∧
    decodeTableWord 32 0x01000000 = some (.beq 0 0 0) ∧ decodeTableWord 32 0x01400000 = some (.jalr 0 0) ∧
    decodeTableWord 32 0x01800000 = some .halt ∧ decodeTableWord 32 0x01C00000 = some .noop := by decide

/-! ### Encoding: the canonical words of the instruction rules (R69, R100–R131) -/

theorem test_encode_add_nor : encode (.add 1 2 3) = 0x000A0003 ∧ encode (.nor 1 2 3) = 0x004A0003 := by decide
theorem test_encode_lw_sw : encode (.lw 0 1 5) = 0x00810005 ∧ encode (.sw 1 2 0xFFFFFFFF) = 0x00CAFFFF := by decide
theorem test_encode_beq_jalr : encode (.beq 1 2 3) = 0x010A0003 ∧ encode (.jalr 1 2) = 0x014A0000 := by decide
theorem test_encode_halt_noop : encode .halt = 0x01800000 ∧ encode .noop = 0x01C00000 := by decide

/-! ### The instructions (`95_test_vectors.md` section 3) -/

/-- E2: the sum wraps. -/
theorem test_add_wraps : after (.add 1 2 3) (st 0 0xFFFFFFFF 1) (fun t => (t.reg 3, t.pc, t.count)) = some (0, 1, 1) := by decide
/-- R24, R22: the destination is both sources; `x[0]` is not hardwired. -/
theorem test_add_destination_is_source :
    after (.add 1 1 1) (st 0 0x40000001 0) (fun t => t.reg 1) = some 0x80000002 ∧
    after (.add 1 1 0) (st 0 5 0) (fun t => t.reg 0) = some 10 := by decide
/-- E3. -/
theorem test_nor : after (.nor 1 2 3) (st 0 0x12345678 0x87654321) (fun t => t.reg 3) = some 0x688AA886 := by decide
theorem test_nor_in_place : after (.nor 1 2 1) (st 0 0x0000FFFF 0x00FF00FF) (fun t => t.reg 1) = some 0xFF000000 := by decide
theorem test_lw_last_word : after (.lw 2 3 0) (st 0 0 65535 [(65535, 0xABCD)]) (fun t => (t.reg 3, t.pc)) = some (0xABCD, 1) := by
  decide
/-- E9: the address wraps before the check and never into the array. -/
theorem test_lw_below_zero_faults : after (.lw 0 1 0xFFFFFFFF) (st 0 7 0) (fun t => (t.reg 1, t.pc, t.count, t.halted, t.fault)) =
    some (7, 0, 0, true, some ⟨.load, 0xFFFFFFFF⟩) := by decide
theorem test_sw_base_is_source : after (.sw 1 1 1) (st 0 30 0) (fun t => (t.mem, t.pc)) = some ([(31, 30)], 1) := by decide
theorem test_sw_above_range_faults : after (.sw 1 2 1) (st 0 65535 5) (fun t => (t.mem, t.pc, t.fault)) =
    some ([], 0, some ⟨.store, 0x10000⟩) := by decide
/-- E5: the target is relative to the BEQ's own address. -/
theorem test_beq : after (.beq 1 2 3) (st 2 5 5) (fun t => t.pc) = some 5 ∧ after (.beq 1 2 3) (st 2 5 6) (fun t => t.pc) = some 3 := by
  decide
theorem test_beq_below_zero_wraps : after (.beq 0 0 0xFFFF8000) (st 10 0 0) (fun t => (t.pc, t.halted)) = some (0xFFFF800A, false) := by
  decide
/-- E6. -/
theorem test_jalr : after (.jalr 1 2) (st 10 100 0) (fun t => (t.reg 2, t.pc)) = some (11, 100) := by decide
/-- C1: with equal fields the target is the link. -/
theorem test_jalr_same_register : after (.jalr 1 1) (st 10 100 0) (fun t => (t.reg 1, t.pc)) = some (11, 11) := by decide
/-- HALT at the last word leaves `pc = 65536` and raises no fault. -/
theorem test_halt_at_last_word : after .halt (st 65535 0 0) (fun t => (t.pc, t.count, t.halted, t.fault)) =
    some (65536, 1, true, none) := by decide
theorem test_noop : after .noop (st 7 1 2) (fun t => (t.pc, t.count, t.halted, t.reg 1)) = some (8, 1, false, 1) := by decide

/-! ### Steps, the host's port and memory -/

theorem test_fetch_fault : afterStep (st 65536 0 0) (fun t => (t.pc, t.count, t.halted, t.fault)) =
    some (65536, 0, true, some ⟨.fetch, 0x10000⟩) := by decide
theorem test_halted_step_changes_nothing : afterStep { st 5 1 2 with halted := true } id = some { st 5 1 2 with halted := true } := by
  decide
/-- R71: the first step of a machine with no image is `ADD r0, r0, r0`. -/
theorem test_first_step_of_empty_image : afterStep State.reset (fun t => (t.pc, t.count, t.reg 0)) = some (1, 1, 0) := by decide
theorem test_placed_word_runs_first :
    afterStep (State.reset.withFetchWord 32 0x01800000) (fun t => (t.pc, t.count, t.halted)) = some (1, 1, true) := by decide
theorem test_step_n_zero : (match stepN 0 State.reset with | .next (_, h) => some h | _ => none) = some false := by decide
theorem test_outcomes :
    stepOutcome (st 0 0 0 [(0, 0x01C00000)]) = .continued ∧ stepOutcome (st 0 0 0 [(0, 0x01800000)]) = .haltedThisStep ∧
    stepOutcome (st 0 0 0 [(0, 0x0081FFFF)]) = .memoryFault ⟨.load, 0xFFFFFFFF⟩ := by decide
theorem test_fault_codes : AccessKind.fetch.code = 0 ∧ AccessKind.load.code = 1 ∧ AccessKind.store.code = 2 := by decide
/-- `95_test_vectors.md`, Observers. -/
theorem test_read_memory_range_ends :
    readMemoryRange State.reset 65535 1 = .value [0] ∧ readMemoryRange State.reset 65536 0 = .value [] ∧
    readMemoryRange State.reset 65535 2 = .outOfRange := by decide
theorem test_peek_decodes_data_words :
    peekInstructions (st 5 0 0 [(5, 7), (6, 35)]) 2 = .value [(5, .add 0 0 7), (6, .add 0 0 3)] := by decide
theorem test_read_register_bound : readRegister (st 0 0x2A 0) 1 = .value 0x2A ∧ readRegister State.reset 8 = .outOfRange := by decide
/-- R41, on an image with a zero word in it: the canonical form lists no zero. -/
theorem test_construct_lists_no_zero : construct [7, 0, 35] = .engine { State.reset with mem := [(0, 7), (2, 35)] } := by decide
theorem test_write_of_zero_unlists : Memory.write [(1, 5), (3, 6)] 3 0 = [(1, 5)] ∧ Memory.write [(1, 5)] 0 9 = [(0, 9), (1, 5)] := by
  decide
/-- R162, D21. -/
theorem test_image_integers : imageWord (-1) = 0xFFFFFFFF ∧ imageWord 25165824 = 0x01800000 := by decide

/-! ### Witnesses: for each statement with hypotheses, states and operands that meet them, at the ends of the ranges -/

theorem witness_ImmediateIsTheSignedOffset :
    (decode 0x00817FFF = .lw 0 1 0x00007FFF ∧ 0x00817FFF % 65536 < 32768) ∧
    (decode 0x00C18000 = .sw 0 1 0xFFFF8000 ∧ 32768 ≤ 0x00C18000 % 65536) ∧
    (decode 0x0101FFFF = .beq 0 1 0xFFFFFFFF ∧ 32768 ≤ 0x0101FFFF % 65536) := by decide

theorem witness_DecodeOfEncodeIsTheInstruction :
    (Instr.add 7 0 7).wellFormed = true ∧ (Instr.lw 7 0 0xFFFF8000).wellFormed = true ∧ (Instr.sw 0 7 0x7FFF).wellFormed = true ∧
    Instr.halt.wellFormed = true := by decide

theorem witness_IgnoredBitsDoNotChangeTheInstruction :
    ((0xFE0AFFFB : Word) ^^^ 0x000A0003) &&& (decode 0x000A0003).form.usedBits = 0 ∧
    ((0xFFBFFFFF : Word) ^^^ 0x01800000) &&& (decode 0x01800000).form.usedBits = 0 := by decide

theorem witness_LoadReadsTheWordInRange :
    ((st 0 65535 0).effAddr 1 0).toNat < 65536 ∧ ((st 0 0xFFFFFFFF 0).effAddr 1 1).toNat < 65536 := by decide

theorem witness_LoadOutOfRangeTakesTheFault :
    65536 ≤ ((st 0 65535 0).effAddr 1 1).toNat ∧ 65536 ≤ ((st 0 0 0).effAddr 1 0xFFFFFFFF).toNat := by decide

theorem witness_StoreWritesTheWordInRange :
    (st 0 65535 5 [(1, 9)]).mem.wf ∧ ((st 0 65535 5 [(1, 9)]).effAddr 1 0).toNat < 65536 := by decide

theorem witness_StoreOutOfRangeTakesTheFault : 65536 ≤ ((st 0 65535 5).effAddr 1 1).toNat := by decide

/-- The last word, stored by `r1 + 0` and loaded by `r2 - 1`, another base and offset. -/
theorem witness_StoreThenLoadReturnsTheValue :
    (st 0 65535 65536 [(1, 9)]).mem.wf ∧ ((st 0 65535 65536 [(1, 9)]).effAddr 1 0).toNat < 65536 ∧
    (st 0 65535 65536 [(1, 9)]).effAddr 2 0xFFFFFFFF = (st 0 65535 65536 [(1, 9)]).effAddr 1 0 := by decide

/-- `SW r1, r2, 0` at word 65534 storing HALT over word 65535. -/
theorem witness_StoreIsSeenByTheNextFetch :
    (st 65534 65535 0x01800000 [(65534, 0x00CA0000)]).mem.wf ∧
    (st 65534 65535 0x01800000 [(65534, 0x00CA0000)]).halted = false ∧
    (st 65534 65535 0x01800000 [(65534, 0x00CA0000)]).pc.toNat < 65536 ∧
    decode ((st 65534 65535 0x01800000 [(65534, 0x00CA0000)]).cell 65534) = .sw 1 2 0 ∧
    (st 65534 65535 0x01800000 [(65534, 0x00CA0000)]).effAddr 1 0 = 65534 + 1 ∧
    ((st 65534 65535 0x01800000 [(65534, 0x00CA0000)]).effAddr 1 0).toNat < 65536 := by decide

theorem witness_OnlyStoresChangeMemory :
    (st 0 65535 5 [(0, 0x00CA0000)]).mem.wf ∧
    ∃ t, step (st 0 65535 5 [(0, 0x00CA0000)]) = .next t ∧ t.cell 65535 ≠ (st 0 65535 5 [(0, 0x00CA0000)]).cell 65535 :=
  ⟨by decide, _, rfl, by decide⟩

theorem witness_BranchTargetIsRelativeToItsOwnAddress :
    (st 0 5 5).reg 1 = (st 0 5 5).reg 2 ∧ (st 0 5 6).reg 1 ≠ (st 0 5 6).reg 2 := by decide

theorem witness_JumpAndLinkWritesTheLinkThenJumps : ((1 : Reg) ≠ 2) ∧ ((1 : Reg) = 1) := by decide

theorem witness_BranchToItselfNeverHalts :
    (st 65535 5 5 [(65535, 0x010A0000)]).halted = false ∧ (st 65535 5 5 [(65535, 0x010A0000)]).pc.toNat < 65536 ∧
    decode ((st 65535 5 5 [(65535, 0x010A0000)]).cell 65535) = .beq 1 2 0 ∧
    (st 65535 5 5 [(65535, 0x010A0000)]).reg 1 = (st 65535 5 5 [(65535, 0x010A0000)]).reg 2 := by decide

theorem witness_HaltStopsTheMachineForGood : ((0xFFBFFFFF : Word) >>> 22 &&& 7).toNat = 6 := by decide

theorem witness_NoopOnlyAdvancesAndCounts : ((0xFFFFFFFF : Word) >>> 22 &&& 7).toNat = 7 := by decide

theorem witness_StepRunsTheDecodedInstruction :
    (st 65535 0 0 [(65535, 0x01C00000)]).halted = false ∧ (st 65535 0 0 [(65535, 0x01C00000)]).pc.toNat < 65536 ∧
    Instr.noop.wellFormed = true ∧ (st 65535 0 0 [(65535, 0x01C00000)]).cell 65535 = encode .noop := by decide

theorem witness_FetchOutOfRangeTakesTheFault :
    (st 65536 0 0).halted = false ∧ 65536 ≤ (st 65536 0 0).pc.toNat ∧ 65536 ≤ (st 0xFFFFFFFF 0 0).pc.toNat := by decide

theorem witness_FaultingStepDiscardsEveryWrite :
    stepOutcome (st 65536 0 0) = .memoryFault ⟨.fetch, 65536⟩ ∧
    stepOutcome (st 0 65536 0 [(0, 0x008A0000)]) = .memoryFault ⟨.load, 65536⟩ ∧
    stepOutcome (st 0 65536 0 [(0, 0x00CA0000)]) = .memoryFault ⟨.store, 65536⟩ := by decide

theorem witness_StepFollowsTheStateMachine :
    ({ st 0 0 0 with halted := true } : State).halted = true ∧ (st 0 0 0).halted = false := by decide

theorem witness_HaltedEngineNeverChanges : ({ st 65536 1 2 with halted := true } : State).halted = true := by decide

/-- A halted engine, and running ones for each side of the equivalence: HALT, a fetch fault, a store fault, and a NOOP. -/
theorem witness_HaltedIsSetOnlyByHaltOrFault :
    (∃ t, step { st 0 0 0 with halted := true } = .next t ∧ t.halted = true) ∧
    (∃ t, step (st 0 0 0 [(0, 0x01800000)]) = .next t ∧ t.halted = true) ∧
    (∃ t, step (st 65536 0 0) = .next t ∧ t.halted = true) ∧
    (∃ t, step (st 0 65535 0 [(0, 0x00CA0001)]) = .next t ∧ t.halted = true) ∧
    ∃ t, step (st 65535 0 0 [(65535, 0x01C00000)]) = .next t ∧ t.halted = false :=
  ⟨⟨_, rfl, by decide⟩, ⟨_, rfl, by decide⟩, ⟨_, rfl, by decide⟩, ⟨_, rfl, by decide⟩, ⟨_, rfl, by decide⟩⟩

theorem witness_CounterCountsExecutedInstructions :
    (∃ t, step (st 0 0 0 [(0, 0x01C00000)]) = .next t ∧ stepOutcome (st 0 0 0 [(0, 0x01C00000)]) = .continued) ∧
    (∃ t, step (st 0 0 0 [(0, 0x01800000)]) = .next t ∧ stepOutcome (st 0 0 0 [(0, 0x01800000)]) = .haltedThisStep) ∧
    ∃ t, step { st 0 0 0 with halted := true } = .next t :=
  ⟨⟨_, rfl, by decide⟩, ⟨_, rfl, by decide⟩, ⟨_, rfl⟩⟩

/-- Each case of the conclusion: sequential at the last word, a taken BEQ, a JALR with equal and with different fields. -/
theorem witness_PcMovesByOneByOffsetOrToARegister :
    (∃ t, step (st 65535 0 0 [(65535, 0x01C00000)]) = .next t ∧ t.pc = 65536) ∧
    (∃ t, step (st 0 5 5 [(0, 0x010AFFFF)]) = .next t ∧ t.pc = 0xFFFFFFFF) ∧
    (∃ t, step (st 0 65536 0 [(0, 0x014A0000)]) = .next t ∧ t.pc = 65536) ∧
    (∃ t, step (st 0 65536 0 [(0, 0x01490000)]) = .next t ∧ t.pc = 1) ∧
    stepOutcome (st 0 5 5 [(0, 0x010AFFFF)]) = .continued :=
  ⟨⟨_, rfl, by decide⟩, ⟨_, rfl, by decide⟩, ⟨_, rfl, by decide⟩, ⟨_, rfl, by decide⟩, by decide⟩

/-- HALT at the last word, and a BEQ of registers that differ there. -/
theorem witness_SequentialPcNeverWraps :
    (∃ t, step (st 65535 0 0 [(65535, 0x01800000)]) = .next t ∧ t.pc.toNat = 65536) ∧
    stepOutcome (st 65535 0 0 [(65535, 0x01800000)]) = .haltedThisStep ∧
    decode ((st 65535 0 0 [(65535, 0x01800000)]).cell 65535) = .halt ∧
    (∃ t, step (st 65535 5 6 [(65535, 0x010A0003)]) = .next t ∧ t.pc.toNat = 65536) ∧
    stepOutcome (st 65535 5 6 [(65535, 0x010A0003)]) = .continued ∧
    decode ((st 65535 5 6 [(65535, 0x010A0003)]).cell 65535) = .beq 1 2 3 ∧
    (st 65535 5 6 [(65535, 0x010A0003)]).reg 1 ≠ (st 65535 5 6 [(65535, 0x010A0003)]).reg 2 :=
  ⟨⟨_, rfl, by decide⟩, by decide, by decide, ⟨_, rfl, by decide⟩, by decide, by decide, by decide⟩

/-- Steps that end a run by HALT, by a fault, and not at all. -/
theorem witness_RunEndsByHaltOrByFault :
    ((st 65535 0 0 [(65535, 0x01800000)]).inv ∧ (st 65535 0 0 [(65535, 0x01800000)]).halted = false ∧
      ∃ t, step (st 65535 0 0 [(65535, 0x01800000)]) = .next t ∧ t.endedByHalt) ∧
    ((st 65536 0 0).inv ∧ (st 65536 0 0).halted = false ∧ ∃ t, step (st 65536 0 0) = .next t ∧ t.endedByFault) ∧
    ((st 65535 0 0).inv ∧ ∃ t, step (st 65535 0 0) = .next t ∧ t.halted = false) :=
  ⟨⟨⟨by decide, fun _ h => by cases h⟩, rfl, _, rfl, rfl, rfl⟩,
    ⟨⟨by decide, fun _ h => by cases h⟩, rfl, _, rfl, rfl, by decide⟩,
    ⟨by decide, fun _ h => by cases h⟩, _, rfl, rfl⟩

/-- A step that changes a register, for each form with a write port: ADD and NOR into `r0`, LW of the last word, JALR. -/
theorem witness_OnlyTheWritePortChangesARegister :
    (∃ t, step (st 0 1 2 [(0, 0x000A0000)]) = .next t ∧ t.reg 0 ≠ (st 0 1 2 [(0, 0x000A0000)]).reg 0) ∧
    (∃ t, step (st 0 1 2 [(0, 0x004A0000)]) = .next t ∧ t.reg 0 ≠ (st 0 1 2 [(0, 0x004A0000)]).reg 0) ∧
    (∃ t, step (st 0 65535 2 [(0, 0x008A0000), (65535, 9)]) = .next t ∧
      t.reg 2 ≠ (st 0 65535 2 [(0, 0x008A0000), (65535, 9)]).reg 2) ∧
    ∃ t, step (st 0 1 2 [(0, 0x014A0000)]) = .next t ∧ t.reg 2 ≠ (st 0 1 2 [(0, 0x014A0000)]).reg 2 :=
  ⟨⟨_, rfl, by decide⟩, ⟨_, rfl, by decide⟩, ⟨_, rfl, by decide⟩, ⟨_, rfl, by decide⟩⟩

theorem witness_CounterAndFaultAreInvisibleToPrograms :
    (st 0 1 2).regs = ({ st 0 1 2 with count := 9, fault := some ⟨.load, 65536⟩ } : State).regs ∧
    (st 0 1 2).mem = ({ st 0 1 2 with count := 9, fault := some ⟨.load, 65536⟩ } : State).mem ∧
    (st 0 1 2).pc = ({ st 0 1 2 with count := 9, fault := some ⟨.load, 65536⟩ } : State).pc ∧
    (st 0 1 2).halted = ({ st 0 1 2 with count := 9, fault := some ⟨.load, 65536⟩ } : State).halted ∧
    st 0 1 2 ≠ { st 0 1 2 with count := 9, fault := some ⟨.load, 65536⟩ } := by decide

/-- The empty image, a full image and one word more. -/
theorem witness_ConstructionLoadsTheImage :
    ([] : List Word).length ≤ 65536 ∧ (List.replicate 65536 (1 : Word)).length ≤ 65536 ∧
    65536 < (List.replicate 65537 (1 : Word)).length :=
  ⟨by decide, le_of_eq List.length_replicate, by rw [List.length_replicate]; decide⟩

theorem witness_InvariantHoldsAfterConstruction : ∃ s, construct [7, 0, 35] = .engine s := ⟨_, rfl⟩

/-- A state in the invariant that holds a fault, and a running one that a step takes to a fault. -/
theorem witness_InvariantKeptByEveryStep :
    ({ st 65536 0 0 [(3, 1)] with halted := true, fault := some ⟨.fetch, 65536⟩ } : State).inv ∧
    (st 0 65535 5 [(0, 0x00CA0001)]).inv ∧ ∃ t, step (st 0 65535 5 [(0, 0x00CA0001)]) = .next t ∧ t.fault ≠ none := by
  refine ⟨⟨by decide, fun f h => ?_⟩, ⟨by decide, fun f h => by cases h⟩, _, rfl, by decide⟩
  cases h
  exact ⟨rfl, by decide, fun _ => rfl, fun h => absurd rfl h⟩

/-- A state in the invariant, with a request of each of the three kinds. -/
theorem witness_HostRequestsOnlyStepTheEngine :
    (st 0 65535 5 [(0, 0x00CA0001)]).inv ∧ (∃ q : Request, q = .step) ∧ (∃ q : Request, q = .stepN 0) ∧
    Request.readPc.observes = true :=
  ⟨⟨by decide, fun f h => by cases h⟩, ⟨_, rfl⟩, ⟨_, rfl⟩, rfl⟩

theorem witness_ObserversChangeNothing : (Request.peekInstructions 3).observes = true ∧ Request.readFault.observes = true := by decide

theorem witness_ReadRegisterAnswersOrIsOutOfRange : 7 < 8 ∧ 8 ≤ 8 := by decide

theorem witness_ReadMemoryRangeAnswersTheWindow : 65535 + 1 ≤ 65536 ∧ 65536 + 0 ≤ 65536 ∧ 65536 < 65535 + 2 := by decide

theorem witness_PeekInstructionsDecodesTheWindow :
    (st 65535 0 0).pc.toNat + 1 ≤ 65536 ∧ 65536 < (st 65535 0 0).pc.toNat + 2 := by decide

end Sys2Proof.Tests
end

section
/-! SUPPORT. More of what a body and a step can do (`40_step.md` R81): when a body completes, what a completed body leaves in `pc` and
in a register, and that every step answers a next state. -/

namespace Sys2Proof.Machine

/-! ### A completed body -/

theorem equal_iff (x y : Word) : equal x y = true ↔ x = y := beq_iff_eq

theorem bodyBeq_of_eq {a b : Reg} {s : State} (imm : Word) (h : s.reg a = s.reg b) :
    bodyBeq a b imm s = .ok (s.setPc (s.branchTarget imm)) :=
  if_pos ((equal_iff _ _).mpr h)

theorem bodyBeq_of_ne {a b : Reg} {s : State} (imm : Word) (h : s.reg a ≠ s.reg b) :
    bodyBeq a b imm s = .ok s.advance :=
  if_neg (mt (equal_iff _ _).mp h)

theorem bodyLw_ok_inv {a b : Reg} {imm : Word} {s u : State} (h : bodyLw a b imm s = .ok u) :
    (s.effAddr a imm).toNat < Config.memWords ∧ u = (s.setReg b (s.cell (s.effAddr a imm).toNat)).advance := by
  rcases Nat.lt_or_ge (s.effAddr a imm).toNat Config.memWords with hlt | hge
  · rw [bodyLw_ok hlt] at h; cases h; exact ⟨hlt, rfl⟩
  · rw [bodyLw_error hge] at h; cases h

theorem bodySw_ok_inv {a b : Reg} {imm : Word} {s u : State} (h : bodySw a b imm s = .ok u) :
    (s.effAddr a imm).toNat < Config.memWords ∧
      u = ({ s with mem := s.mem.write (s.effAddr a imm).toNat (s.reg b) } : State).advance := by
  rcases Nat.lt_or_ge (s.effAddr a imm).toNat Config.memWords with hlt | hge
  · rw [bodySw_ok hlt] at h; cases h; exact ⟨hlt, rfl⟩
  · rw [bodySw_error hge] at h; cases h

/-- The converse of `bodyOf_error`: a body that completes is not that of a LW or SW with an illegal effective address (R141). -/
theorem effAddr_lt_of_bodyOf_ok {i : Instr} {s u : State} (h : bodyOf i s = .ok u) {a b : Reg} {imm : Word}
    (hi : i = .lw a b imm ∨ i = .sw a b imm) : (s.effAddr a imm).toNat < Config.memWords := by
  rcases hi with rfl | rfl
  · exact (bodyLw_ok_inv h).1
  · exact (bodySw_ok_inv h).1

/-- A completed body leaves `pc + 1`, the target of a taken BEQ, or the register JALR reads after its link (`10_state.md` R26). -/
theorem bodyOf_ok_pc {i : Instr} {s u : State} (h : bodyOf i s = .ok u) :
    u.pc = s.pc + 1 ∨
    (∃ a b imm, i = .beq a b imm ∧ s.reg a = s.reg b ∧ u.pc = s.pc + imm) ∨
    ∃ a b, i = .jalr a b ∧ u.pc = u.reg a := by
  cases i with
  | lw a b imm => obtain ⟨-, rfl⟩ := bodyLw_ok_inv h; exact .inl rfl
  | sw a b imm => obtain ⟨-, rfl⟩ := bodySw_ok_inv h; exact .inl rfl
  | beq a b imm =>
    by_cases hab : s.reg a = s.reg b
    · cases (bodyBeq_of_eq imm hab).symm.trans h
      exact .inr (.inl ⟨a, b, imm, rfl, hab, rfl⟩)
    · cases (bodyBeq_of_ne imm hab).symm.trans h
      exact .inl rfl
  | jalr a b => cases h; exact .inr (.inr ⟨a, b, rfl, rfl⟩)
  | _ => cases h; exact .inl rfl

/-- A register that differs after a register write is the one written, and holds the value written. -/
theorem State.eq_of_setReg_reg_ne {s : State} {r d : Reg} {v : Word} (h : (s.setReg d v).reg r ≠ s.reg r) :
    d = r ∧ (s.setReg d v).reg r = v := by
  rcases eq_or_ne r d with rfl | hne
  · exact ⟨rfl, s.setReg_reg_same r v⟩
  · exact absurd (s.setReg_reg_of_ne r d v hne) h

/-- A register a completed body changes is the one on its write port, with the value of the port's data (`10_state.md` R23). -/
theorem bodyOf_ok_reg {i : Instr} {s u : State} {r : Reg} (h : bodyOf i s = .ok u) (hr : u.reg r ≠ s.reg r) :
    (∃ a b, i = .add a b r ∧ u.reg r = s.reg a + s.reg b) ∨
    (∃ a b, i = .nor a b r ∧ u.reg r = ~~~(s.reg a ||| s.reg b)) ∨
    (∃ a imm, i = .lw a r imm ∧ (s.effAddr a imm).toNat < Config.memWords ∧
      u.reg r = s.cell (s.effAddr a imm).toNat) ∨
    ∃ a, i = .jalr a r ∧ u.reg r = s.pc + 1 := by
  cases i with
  | add a b d =>
    cases h
    obtain ⟨rfl, hv⟩ := State.eq_of_setReg_reg_ne hr
    exact .inl ⟨a, b, rfl, hv⟩
  | nor a b d =>
    cases h
    obtain ⟨rfl, hv⟩ := State.eq_of_setReg_reg_ne hr
    exact .inr (.inl ⟨a, b, rfl, hv⟩)
  | lw a b imm =>
    obtain ⟨hlt, rfl⟩ := bodyLw_ok_inv h
    obtain ⟨rfl, hv⟩ := State.eq_of_setReg_reg_ne hr
    exact .inr (.inr (.inl ⟨a, imm, rfl, hlt, hv⟩))
  | jalr a b =>
    cases h
    obtain ⟨rfl, hv⟩ := State.eq_of_setReg_reg_ne hr
    exact .inr (.inr (.inr ⟨a, rfl, hv⟩))
  | sw a b imm => obtain ⟨-, rfl⟩ := bodySw_ok_inv h; exact absurd rfl hr
  | beq a b imm =>
    by_cases hab : s.reg a = s.reg b
    · cases (bodyBeq_of_eq imm hab).symm.trans h; exact absurd rfl hr
    · cases (bodyBeq_of_ne imm hab).symm.trans h; exact absurd rfl hr
  | _ => cases h; exact absurd rfl hr

/-! ### The commit of a completed body, HALT's or another's (the last case of `step_cases`) -/

section Retired
variable (p : Prop) [Decidable p] (u : State) (r : Reg)

@[simp] theorem State.retired_reg : (if p then u.retire.halt else u.retire).reg r = u.reg r := by split <;> rfl
@[simp] theorem State.retired_pc : (if p then u.retire.halt else u.retire).pc = u.pc := by split <;> rfl
@[simp] theorem State.retired_count : (if p then u.retire.halt else u.retire).count = u.count + 1 := by split <;> rfl
@[simp] theorem State.retired_halted : (if p then u.retire.halt else u.retire).halted = true ↔ p ∨ u.halted = true := by
  split <;> simp_all

end Retired

/-! ### Every step answers -/

theorem exec_answers_next (i : Instr) (s : State) : ∃ t, exec i s = .next t := by
  rw [exec_eq]
  cases bodyOf i s <;> exact ⟨_, rfl⟩

theorem step_answers_next (s : State) : ∃ t, step s = .next t := by
  cases hh : s.halted with
  | true => exact ⟨_, step_of_halted hh⟩
  | false =>
    rcases Nat.lt_or_ge s.pc.toNat Config.memWords with hpc | hpc
    · rw [step_of_running hh hpc]; exact exec_answers_next _ _
    · exact ⟨_, step_of_fetch_fault hh hpc⟩

/-! ### Runs of a halted engine (`40_step.md` R87) -/

theorem run_of_halted {s : State} (h : s.halted = true) (n : Nat) : Sys2Proof.core.run n s = .next s := by
  induction n with
  | zero => rfl
  | succ n ih => rw [run_succ (step_of_halted h), ih]

theorem stepN_of_halted {s : State} (h : s.halted = true) (n : Nat) : stepN n s = .next (s, true) := by
  cases n <;> simp [stepN, h]

end Sys2Proof.Machine
end

section
/-! SUPPORT. What programs cannot read (`10_state.md` R34): every body is the same function of the registers, the memory and `pc`,
whatever `COUNT` and `FAULT` hold. -/

namespace Sys2Proof.Machine

/-- The state with another `COUNT` and another `FAULT`. -/
def State.withRecord (s : State) (c : Count) (f : Option FaultRecord) : State := { s with count := c, fault := f }

/-- `t` is `s` but for `COUNT` and `FAULT`. -/
def State.agreesWith (s t : State) : Prop := ∃ c f, t = s.withRecord c f

theorem State.agreesWith_iff (s t : State) :
    s.agreesWith t ↔ s.regs = t.regs ∧ s.mem = t.mem ∧ s.pc = t.pc ∧ s.halted = t.halted := by
  constructor
  · rintro ⟨c, f, rfl⟩
    exact ⟨rfl, rfl, rfl, rfl⟩
  · intro ⟨hregs, hmem, hpc, hhalted⟩
    refine ⟨t.count, t.fault, ?_⟩
    rw [State.withRecord, hregs, hmem, hpc, hhalted]

/-- A body neither reads `COUNT` and `FAULT` nor writes them: another record before it is that record after it. -/
theorem bodyOf_withRecord (i : Instr) (s : State) (c : Count) (f : Option FaultRecord) :
    bodyOf i (s.withRecord c f) = (bodyOf i s).map (·.withRecord c f) := by
  cases i with
  | lw a b imm =>
    change bodyLw a b imm (s.withRecord c f) = (bodyLw a b imm s).map _
    rcases Nat.lt_or_ge (s.effAddr a imm).toNat Config.memWords with h | h
    · rw [bodyLw_ok h]; exact bodyLw_ok h
    · rw [bodyLw_error h]; exact bodyLw_error h
  | sw a b imm =>
    change bodySw a b imm (s.withRecord c f) = (bodySw a b imm s).map _
    rcases Nat.lt_or_ge (s.effAddr a imm).toNat Config.memWords with h | h
    · rw [bodySw_ok h]; exact bodySw_ok h
    · rw [bodySw_error h]; exact bodySw_error h
  | beq a b imm =>
    change bodyBeq a b imm (s.withRecord c f) = (bodyBeq a b imm s).map _
    by_cases h : s.reg a = s.reg b
    · rw [bodyBeq_of_eq imm h]; exact bodyBeq_of_eq imm h
    · rw [bodyBeq_of_ne imm h]; exact bodyBeq_of_ne imm h
  | _ => rfl

theorem exec_agreesWith (i : Instr) {s s' t : State} (hs : s.agreesWith s') (h : exec i s = .next t) :
    ∃ t', exec i s' = .next t' ∧ t.agreesWith t' := by
  obtain ⟨c, f, rfl⟩ := hs
  rw [exec_eq] at h ⊢
  rw [bodyOf_withRecord]
  cases hb : bodyOf i s with
  | ok u =>
    rw [hb] at h
    cases h
    refine ⟨_, rfl, c + 1, f, ?_⟩
    split <;> rfl
  | error g =>
    rw [hb] at h
    cases h
    exact ⟨_, rfl, c, some g, rfl⟩

/-- One step keeps the agreement. -/
theorem step_agreesWith {s s' t : State} (hs : s.agreesWith s') (h : step s = .next t) :
    ∃ t', step s' = .next t' ∧ t.agreesWith t' := by
  have hs₀ := hs
  obtain ⟨c, f, rfl⟩ := hs₀
  cases hh : s.halted with
  | true =>
    cases (step_of_halted hh).symm.trans h
    exact ⟨_, step_of_halted hh, hs⟩
  | false =>
    rcases Nat.lt_or_ge s.pc.toNat Config.memWords with hpc | hpc
    · obtain ⟨t', ht', ha⟩ := exec_agreesWith _ hs ((step_of_running hh hpc).symm.trans h)
      exact ⟨t', (step_of_running (s := s.withRecord c f) hh hpc).trans ht', ha⟩
    · cases (step_of_fetch_fault hh hpc).symm.trans h
      exact ⟨_, step_of_fetch_fault hh hpc, c, some ⟨.fetch, s.pc⟩, rfl⟩

/-- Any number of steps keeps the agreement. -/
theorem run_agreesWith (n : Nat) {s s' : State} (hs : s.agreesWith s') :
    ∃ t t', Sys2Proof.core.run n s = .next t ∧ Sys2Proof.core.run n s' = .next t' ∧ t.agreesWith t' := by
  induction n generalizing s s' with
  | zero => exact ⟨s, s', rfl, rfl, hs⟩
  | succ n ih =>
    obtain ⟨u, hu⟩ := step_answers_next s
    obtain ⟨u', hu', ha⟩ := step_agreesWith hs hu
    rw [run_succ hu, run_succ hu']
    exact ih ha

end Sys2Proof.Machine
end

section
/-! SUPPORT. The statements about the architectural state (`10_state.md`), settled. -/

namespace Sys2Proof.Machine

/-- Settles O37: agreement up to `COUNT` and `FAULT` is kept by every run. -/
theorem counterAndFaultAreInvisibleToPrograms : Obligations.CounterAndFaultAreInvisibleToPrograms := by
  intro n s s' hregs hmem hpc hhalted
  obtain ⟨t, t', ht, ht', ha⟩ := run_agreesWith n ((s.agreesWith_iff s').mpr ⟨hregs, hmem, hpc, hhalted⟩)
  exact ⟨t, t', ht, ht', (t.agreesWith_iff t').mp ha⟩

/-- Settles O29: a step of a halted engine is the identity, so every run of it is. -/
theorem haltedEngineNeverChanges : Obligations.HaltedEngineNeverChanges := fun _ h =>
  ⟨stepOutcome_of_halted h, fun n => ⟨run_of_halted h n, stepN_of_halted h n⟩⟩

/-- Settles O30, by what a step can do: each fault and HALT's commit sets `HALTED`, every other commit keeps it. -/
theorem haltedIsSetOnlyByHaltOrFault : Obligations.HaltedIsSetOnlyByHaltOrFault := by
  refine ⟨rfl, fun s t h => ?_⟩
  rcases step_cases h with ⟨hh, rfl⟩ | ⟨hh, hpc, rfl⟩ | ⟨hh, hpc, f, hb, rfl⟩ | ⟨hh, hpc, u, hb, rfl⟩
  · simp [hh]
  · exact ⟨fun _ => rfl, fun _ => ⟨fun _ => .inl hpc, fun _ => rfl⟩⟩
  · obtain ⟨a, b, imm, hea, hi⟩ := bodyOf_error hb
    exact ⟨fun _ => rfl, fun _ => ⟨fun _ => .inr (.inr ⟨a, b, imm, hi.imp And.left And.left, hea⟩), fun _ => rfl⟩⟩
  · obtain ⟨hhalted, -⟩ := bodyOf_ok hb
    refine ⟨fun h' => absurd h' (by simp [hh]), fun _ => ?_⟩
    rw [State.retired_halted, hhalted, hh]
    constructor
    · rintro (hi | h')
      · exact .inr (.inl hi)
      · cases h'
    · rintro (hge | hi | ⟨a, b, imm, hi, hea⟩)
      · exact absurd hpc (Nat.not_lt.mpr hge)
      · exact .inl hi
      · exact absurd (effAddr_lt_of_bodyOf_ok hb hi) (Nat.not_lt.mpr hea)

/-- Settles O31: the body leaves `COUNT`, and the commit adds one. -/
theorem counterCountsExecutedInstructions : Obligations.CounterCountsExecutedInstructions := by
  refine ⟨rfl, fun s t h => ⟨fun ho => ?_, fun hh => ?_⟩⟩
  · obtain ⟨-, -, u, hb, rfl⟩ := step_completed h ho
    obtain ⟨-, hcount, -⟩ := bodyOf_ok hb
    rw [State.retired_count, hcount]
  · cases (step_of_halted hh).symm.trans h
    rfl

/-- Settles O32: the commit keeps the `pc` and the registers the body leaves. -/
theorem pcMovesByOneByOffsetOrToARegister : Obligations.PcMovesByOneByOffsetOrToARegister := by
  intro s t h ho
  obtain ⟨-, -, u, hb, rfl⟩ := step_completed h ho
  simpa using bodyOf_ok_pc hb

/-- Settles O33: of the moves of O32 only the sequential one is left, and it starts at a legal `pc`. -/
theorem sequentialPcNeverWraps : Obligations.SequentialPcNeverWraps := by
  intro s t h ho hbeq hjalr
  obtain ⟨-, hpc, -⟩ := step_completed h ho
  rw [Config.memWords_eq] at hpc
  rcases pcMovesByOneByOffsetOrToARegister s t h ho with e | ⟨a, b, imm, hi, hab, -⟩ | ⟨a, b, hi, -⟩
  · rw [e]; bv_omega
  · exact absurd hab (hbeq a b imm hi)
  · exact absurd hi (hjalr a b)

/-- Settles O35: a halted step and a fault keep every register, and the commit keeps those the body leaves. -/
theorem onlyTheWritePortChangesARegister : Obligations.OnlyTheWritePortChangesARegister := by
  intro s t r h hr
  rcases step_cases h with ⟨-, rfl⟩ | ⟨-, -, rfl⟩ | ⟨-, -, f, -, rfl⟩ | ⟨hh, hpc, u, hb, rfl⟩
  · exact absurd rfl hr
  · exact absurd rfl hr
  · exact absurd rfl hr
  · rw [State.retired_reg] at hr ⊢
    exact ⟨hh, hpc, bodyOf_ok_reg hb hr⟩

/-- Settles O38: the registers are eight zeros, and the memory of the empty image lists no cell. -/
theorem resetLeavesTheStatedValues : Obligations.ResetLeavesTheStatedValues :=
  ⟨by decide, Memory.read_nil, rfl, rfl, rfl, rfl⟩

/-- Settles O40: the empty memory is in canonical form, and no fault is recorded. -/
theorem invariantHoldsAtReset : Obligations.InvariantHoldsAtReset :=
  ⟨Memory.reset_wf, fun _ h => by cases h⟩

end Sys2Proof.Machine
end

section
/-! SUPPORT. A store and a load that complete, and what every step keeps of the memory array and of the fault record (`20_memory.md`
R44, R46, R49; `60_exceptions.md` R142). -/

namespace Sys2Proof.Machine

/-! ### A stored word -/

/-- The state with `v` in memory cell `a`: what a store that raises no fault leaves (R111). -/
def State.setCell (s : State) (a : Nat) (v : Word) : State := { s with mem := s.mem.write a v }

section SetCell
variable (s : State) (a : Nat) (v : Word) (r : Reg)

@[simp] theorem State.setCell_mem : (s.setCell a v).mem = s.mem.write a v := rfl
@[simp] theorem State.setCell_regs : (s.setCell a v).regs = s.regs := rfl
@[simp] theorem State.setCell_reg : (s.setCell a v).reg r = s.reg r := rfl
@[simp] theorem State.setCell_pc : (s.setCell a v).pc = s.pc := rfl
@[simp] theorem State.setCell_halted : (s.setCell a v).halted = s.halted := rfl
@[simp] theorem State.setCell_count : (s.setCell a v).count = s.count := rfl
@[simp] theorem State.setCell_fault : (s.setCell a v).fault = s.fault := rfl

end SetCell

theorem State.setCell_cell {s : State} (hm : s.mem.wf) (a : Nat) (v : Word) (x : Nat) :
    (s.setCell a v).cell x = if x = a then v else s.cell x :=
  Memory.read_write hm a v x

theorem State.setCell_cell_same {s : State} (hm : s.mem.wf) (a : Nat) (v : Word) : (s.setCell a v).cell a = v := by
  rw [State.setCell_cell hm, if_pos rfl]

theorem State.setCell_cell_of_ne {s : State} (hm : s.mem.wf) {a x : Nat} (v : Word) (h : x ≠ a) :
    (s.setCell a v).cell x = s.cell x := by
  rw [State.setCell_cell hm, if_neg h]

theorem State.cell_eq_of_mem_eq {s u : State} (h : u.mem = s.mem) (x : Nat) : u.cell x = s.cell x :=
  congrArg (Memory.read · x) h

/-! ### LW and SW on a legal effective address -/

theorem exec_lw_of_legal {a b : Reg} {imm : Word} {s : State} (h : (s.effAddr a imm).toNat < Config.memWords) :
    exec (.lw a b imm) s = .next (s.setReg b (s.cell (s.effAddr a imm).toNat)).advance.retire :=
  congrArg s.commit (bodyLw_ok h)

theorem exec_sw_of_legal {a b : Reg} {imm : Word} {s : State} (h : (s.effAddr a imm).toNat < Config.memWords) :
    exec (.sw a b imm) s = .next (s.setCell (s.effAddr a imm).toNat (s.reg b)).advance.retire :=
  congrArg s.commit (bodySw_ok h)

/-! ### The memory a body and its commit leave -/

/-- A cell a completed body changes is the one a SW stored to (R46). -/
theorem bodyOf_ok_cell {i : Instr} {s u : State} {x : Nat} (hm : s.mem.wf) (h : bodyOf i s = .ok u)
    (hx : u.cell x ≠ s.cell x) :
    ∃ a b imm, i = .sw a b imm ∧ (s.effAddr a imm).toNat < Config.memWords ∧ (s.effAddr a imm).toNat = x ∧
      u.cell x = s.reg b := by
  obtain ⟨-, -, -, hmem | ⟨a, b, imm, hi, hlt, hmem⟩⟩ := bodyOf_ok h
  · exact absurd (State.cell_eq_of_mem_eq hmem x) hx
  · have hcell : u.cell x = (s.setCell (s.effAddr a imm).toNat (s.reg b)).cell x := State.cell_eq_of_mem_eq hmem x
    by_cases hxa : x = (s.effAddr a imm).toNat
    · subst hxa
      exact ⟨a, b, imm, hi, hlt, rfl, hcell.trans (State.setCell_cell_same hm _ _)⟩
    · exact absurd (hcell.trans (State.setCell_cell_of_ne hm _ hxa)) hx

theorem bodyOf_ok_wf {i : Instr} {s u : State} (hm : s.mem.wf) (h : bodyOf i s = .ok u) : u.mem.wf := by
  obtain ⟨-, -, -, hmem | ⟨a, b, imm, -, hlt, hmem⟩⟩ := bodyOf_ok h
  · rw [hmem]; exact hm
  · rw [hmem]; exact Memory.write_wf hm hlt _

section Retired
variable (p : Prop) [Decidable p] (u : State) (x : Nat)

@[simp] theorem State.retired_mem : (if p then u.retire.halt else u.retire).mem = u.mem := by split <;> rfl
@[simp] theorem State.retired_cell : (if p then u.retire.halt else u.retire).cell x = u.cell x := by split <;> rfl
@[simp] theorem State.retired_fault : (if p then u.retire.halt else u.retire).fault = u.fault := by split <;> rfl

end Retired

/-! ### The invariant -/

theorem State.inv_of_fault_eq_none {s : State} (hm : s.mem.wf) (hf : s.fault = none) : s.inv :=
  ⟨hm, fun _ h => by rw [hf] at h; cases h⟩

/-- A running engine holds no fault record (`10_state.md` R32). -/
theorem State.fault_eq_none_of_running {s : State} (hs : s.faultConsistent) (hh : s.halted = false) : s.fault = none := by
  cases hf : s.fault with
  | none => rfl
  | some f =>
    obtain ⟨hhalted, -⟩ := hs f hf
    exact absurd (hh.symm.trans hhalted) Bool.false_ne_true

/-- Taking a fault on an address that is not legal gives a state in the invariant, when `pc` is this address for a fetch and legal for a
load or a store. -/
theorem State.takeMemoryFault_inv {s : State} {f : FaultRecord} (hm : s.mem.wf) (haddr : Config.memWords ≤ f.addr.toNat)
    (hfetch : f.kind = .fetch → s.pc = f.addr) (hdata : f.kind ≠ .fetch → s.pc.toNat < Config.memWords) :
    (s.takeMemoryFault f).inv := by
  refine ⟨hm, fun g hg => ?_⟩
  cases hg
  exact ⟨rfl, haddr, hfetch, hdata⟩

/-- The record of a body's fault names a load or a store of an address that is not legal (R141). -/
theorem bodyOf_error_record {i : Instr} {s : State} {f : FaultRecord} (h : bodyOf i s = .error f) :
    f.kind ≠ .fetch ∧ Config.memWords ≤ f.addr.toNat := by
  obtain ⟨a, b, imm, hge, ⟨-, rfl⟩ | ⟨-, rfl⟩⟩ := bodyOf_error h
  · exact ⟨AccessKind.noConfusion, hge⟩
  · exact ⟨AccessKind.noConfusion, hge⟩

end Sys2Proof.Machine
end

section
/-! SUPPORT. The statements about the memory array (`20_memory.md`), settled. -/

namespace Sys2Proof.Machine

/-- Settles O42, by what a step can do: a fault is taken on an address that is not legal, and a completed body of a running engine keeps
the canonical form and the empty record. -/
theorem invariantKeptByEveryStep : Obligations.InvariantKeptByEveryStep := by
  intro s t ⟨hm, hs⟩ h
  rcases step_cases h with ⟨-, rfl⟩ | ⟨-, hpc, rfl⟩ | ⟨-, hpc, f, hb, rfl⟩ | ⟨hh, -, u, hb, rfl⟩
  · exact ⟨hm, hs⟩
  · exact State.takeMemoryFault_inv hm hpc (fun _ => rfl) fun hne => absurd rfl hne
  · obtain ⟨hkind, haddr⟩ := bodyOf_error_record hb
    exact State.takeMemoryFault_inv hm haddr (fun he => absurd he hkind) fun _ => hpc
  · obtain ⟨-, -, hfault, -⟩ := bodyOf_ok hb
    apply State.inv_of_fault_eq_none
    · rw [State.retired_mem]; exact bodyOf_ok_wf hm hb
    · rw [State.retired_fault, hfault]; exact State.fault_eq_none_of_running hs hh

/-- Settles O17: the store leaves every register, so the load's address is still the one stored to, and its cell holds the stored
value. -/
theorem storeThenLoadReturnsTheValue : Obligations.StoreThenLoadReturnsTheValue := by
  intro a b base c imm off s hm hlt hea
  have hload : ((s.setCell (s.effAddr a imm).toNat (s.reg b)).advance.retire).effAddr base off = s.effAddr a imm := hea
  refine ⟨_, _, exec_sw_of_legal hlt, exec_lw_of_legal (hload.symm ▸ hlt), ?_⟩
  rw [hload]
  simp [State.setCell_cell_same hm]

/-- Settles O18: the store advances `pc` to the cell it stored to, and the engine is still running. -/
theorem storeIsSeenByTheNextFetch : Obligations.StoreIsSeenByTheNextFetch := by
  intro a b imm s hm hh hpc hdec hea hlt
  have hnext : ((s.setCell (s.effAddr a imm).toNat (s.reg b)).advance.retire).pc = s.effAddr a imm := hea.symm
  refine ⟨_, ?_, hnext, ?_⟩
  · rw [step_of_running hh hpc, hdec, exec_sw_of_legal hlt]
  · rw [step_of_running, hnext]
    · simp [State.setCell_cell_same hm]
    · exact hh
    · rw [hnext]; exact hlt

/-- Settles O19: a halted step and a fault keep every cell, and the commit keeps those the body leaves. -/
theorem onlyStoresChangeMemory : Obligations.OnlyStoresChangeMemory := by
  intro s t addr hm h hne
  rcases step_cases h with ⟨-, rfl⟩ | ⟨-, -, rfl⟩ | ⟨-, -, f, -, rfl⟩ | ⟨hh, hpc, u, hb, rfl⟩
  · exact absurd rfl hne
  · exact absurd rfl hne
  · exact absurd rfl hne
  · rw [State.retired_cell] at hne ⊢
    obtain ⟨a, b, imm, hi, hlt, hea, hv⟩ := bodyOf_ok_cell hm hb hne
    exact ⟨hh, hpc, hea ▸ hlt, a, b, imm, hi, hea, hv⟩

end Sys2Proof.Machine
end

section
/-! SUPPORT. Which bits of a word its instruction depends on, and which bits the encoder sets (`30_encoding.md` R67, R69). -/

namespace Sys2Proof

/-! ### Fields as masked bits -/

/-- The mask of the `len`-bit field whose lowest bit is at `lo`. -/
def fieldMask (lo len : Nat) : Word := (BitVec.allOnes len).setWidth 32 <<< lo

theorem getLsbD_fieldMask (lo len k : Nat) :
    (fieldMask lo len).getLsbD k = decide (k < 32 ∧ lo ≤ k ∧ k < lo + len) := by
  rw [Bool.eq_iff_iff]
  simp only [fieldMask, BitVec.getLsbD_shiftLeft, BitVec.getLsbD_setWidth, BitVec.getLsbD_allOnes, Bool.and_eq_true,
    Bool.not_eq_true', decide_eq_true_eq, decide_eq_false_iff_not]
  omega

/-- Two words agree under a mask exactly when they agree in each bit the mask selects. -/
theorem and_eq_and_iff {v w m : Word} :
    v &&& m = w &&& m ↔ ∀ k, m.getLsbD k = true → v.getLsbD k = w.getLsbD k := by
  constructor
  · intro h k hk
    simpa [hk] using congrArg (·.getLsbD k) h
  · intro h
    apply BitVec.eq_of_getLsbD_eq
    intro k _
    cases hk : m.getLsbD k with
    | true => simp [h k hk]
    | false => simp [hk]

/-- Two words agree under a union of masks exactly when they agree under each. -/
theorem and_or_eq_and_or_iff {v w m n : Word} :
    v &&& (m ||| n) = w &&& (m ||| n) ↔ v &&& m = w &&& m ∧ v &&& n = w &&& n := by
  simp [and_eq_and_iff, or_imp, forall_and]

/-- Two words agree under a field's mask exactly when they hold the same value in that field. -/
theorem and_fieldMask_eq_iff {v w : Word} {lo len : Nat} :
    v &&& fieldMask lo len = w &&& fieldMask lo len ↔ v.extractLsb' lo len = w.extractLsb' lo len := by
  simp only [and_eq_and_iff, getLsbD_fieldMask, decide_eq_true_eq]
  constructor
  · intro h
    apply BitVec.eq_of_getLsbD_eq
    intro k hk
    by_cases h32 : lo + k < 32
    · simp [hk, h (lo + k) ⟨h32, by omega, by omega⟩]
    · simp [hk, BitVec.getLsbD_of_ge, Nat.le_of_not_lt h32]
  · rintro h k ⟨-, hlo, hhi⟩
    have hbit := congrArg (·.getLsbD (k - lo)) h
    simpa [hlo, Nat.sub_lt_left_of_lt_add hlo hhi] using hbit

/-- Two words differ only outside a mask exactly when they agree under it. -/
theorem xor_and_eq_zero_iff {v w m : Word} : (v ^^^ w) &&& m = 0 ↔ v &&& m = w &&& m := by
  have hdistrib : (v ^^^ w) &&& m = (v &&& m) ^^^ (w &&& m) := by ext k; simp [Bool.and_xor_distrib_right]
  rw [hdistrib]; exact BitVec.xor_eq_zero_iff

theorem sext16_inj {x y : BitVec 16} : sext16 x = sext16 y ↔ x = y := by
  refine ⟨fun h => BitVec.eq_of_toInt_eq ?_, congrArg sext16⟩
  rw [← sext16_toInt, h, sext16_toInt]

theorem regField_eq_iff {v w : Word} {lo : Nat} :
    regField v lo = regField w lo ↔ v &&& fieldMask lo 3 = w &&& fieldMask lo 3 := by
  rw [and_fieldMask_eq_iff, regField, regField, BitVec.toFin_inj]

/-! ### The bits an instruction depends on -/

/-- The bits a form uses are those of the fields it has (R64, R67). -/
theorem usedBits_eq_fieldMasks (form : Form) :
    form.usedBits = match form with
      | .add | .nor => fieldMask 22 3 ||| fieldMask 19 3 ||| fieldMask 16 3 ||| fieldMask 0 3
      | .lw | .sw | .beq => fieldMask 22 3 ||| fieldMask 19 3 ||| fieldMask 16 3 ||| fieldMask 0 16
      | .jalr => fieldMask 22 3 ||| fieldMask 19 3 ||| fieldMask 16 3
      | .halt | .noop => fieldMask 22 3 := by
  cases form <;> decide

/-- Two words agree on the bits a form uses exactly when they have one opcode and give that form one tagged value. -/
theorem and_usedBits_eq_iff {v w : Word} {form : Form} :
    v &&& form.usedBits = w &&& form.usedBits ↔
      (fieldsOf v).opcode = (fieldsOf w).opcode ∧ build form (fieldsOf v) = build form (fieldsOf w) := by
  rw [usedBits_eq_fieldMasks]
  cases form <;>
    simp [build, fieldsOf, sext16_inj, regField_eq_iff, and_or_eq_and_or_iff, ← and_fieldMask_eq_iff, and_assoc]

/-- A word decodes as `w` does exactly when it agrees with `w` on the bits `w`'s form uses (R67). -/
theorem decode_eq_decode_iff {v w : Word} :
    decode v = decode w ↔ v &&& (decode w).form.usedBits = w &&& (decode w).form.usedBits := by
  rw [and_usedBits_eq_iff, form_decode]
  constructor
  · intro h
    have hform : formOf (fieldsOf v).opcode = formOf (fieldsOf w).opcode := by
      simpa [decode_eq_build] using congrArg Instr.form h
    have hop : (fieldsOf v).opcode = (fieldsOf w).opcode := by
      rw [← opcode_formOf (fieldsOf v).opcode, hform, opcode_formOf]
    refine ⟨hop, ?_⟩
    rwa [decode_eq_build, hform] at h
  · rintro ⟨hop, hb⟩
    rwa [decode_eq_build, hop]

theorem canonicalWord_eq_and_usedBits (w : Word) : canonicalWord w = w &&& (decode w).form.usedBits := by
  rw [form_decode]; rfl

/-! ### The bits the encoder sets -/

theorem and_eq_self_trans {x y m : Word} (hx : x &&& y = x) (hy : y &&& m = y) : x &&& m = x := by
  rw [← hx, BitVec.and_assoc, hy]

theorem setWidth_and_low_half (lo : BitVec 16) : lo.setWidth 32 &&& 0xFFFF = lo.setWidth 32 := by
  have hmask : (0xFFFF : Word) = (BitVec.allOnes 16).setWidth 32 := by decide
  rw [hmask, ← BitVec.setWidth_and, BitVec.and_allOnes]

/-- A mask covers a canonical word if it covers the opcode, the two register fields and the bits set in the low half. -/
theorem encodeWord_and_eq_self {m : Word} {lo : BitVec 16} (hm : 0x01FF0000 &&& m = 0x01FF0000)
    (hlo : lo.setWidth 32 &&& m = lo.setWidth 32) (op : BitVec 3) (a b : Reg) :
    encodeWord op a b lo &&& m = encodeWord op a b lo := by
  have hop : (op.setWidth 32 <<< 22) &&& m = op.setWidth 32 <<< 22 := and_eq_self_trans (by revert op; decide) hm
  have ha : (BitVec.ofNat 32 a.val <<< 19) &&& m = BitVec.ofNat 32 a.val <<< 19 := and_eq_self_trans (by revert a; decide) hm
  have hb : (BitVec.ofNat 32 b.val <<< 16) &&& m = BitVec.ofNat 32 b.val <<< 16 := and_eq_self_trans (by revert b; decide) hm
  simp only [encodeWord, BitVec.and_or_distrib_right, hop, ha, hb, hlo]

/-- The encoder sets only bits its form uses (R69). -/
theorem encode_and_usedBits (i : Instr) : encode i &&& i.form.usedBits = encode i := by
  cases i with
  | add a b d | nor a b d =>
    exact encodeWord_and_eq_self (m := 0x01FF0007) (by decide) (by revert d; decide) _ a b
  | lw a b imm | sw a b imm | beq a b imm =>
    exact encodeWord_and_eq_self (m := 0x01FFFFFF) (by decide)
      (and_eq_self_trans (setWidth_and_low_half _) (by decide)) _ a b
  | jalr a b => exact encodeWord_and_eq_self (m := 0x01FF0000) (by decide) (by decide) _ a b
  | halt | noop => decide

/-- Decoding inverts the encoder on well-formed instructions: the fields are read back from their places, and an immediate in the
offset's range from its low half (R66, R69). -/
theorem decode_encode {i : Instr} (h : i.wellFormed = true) : decode (encode i) = i := by
  rw [decode_eq_build]
  cases i with
  | add a b d | nor a b d => simp only [encode, fieldsOf_encodeWord, formOf_opcode, build, dstReg_of_low]
  | lw a b imm | sw a b imm | beq a b imm =>
    have himm : sext16 (imm.setWidth 16) = imm := sext16_of_isOffset h
    simp only [encode, fieldsOf_encodeWord, formOf_opcode, build, himm]
  | jalr | halt | noop => simp only [encode, fieldsOf_encodeWord, formOf_opcode, build]

/-! ### What a decoded instruction holds -/

theorem wellFormed_build (form : Form) (w : Word) : (build form (fieldsOf w)).wellFormed = true := by
  cases form with
  | lw | sw | beq => exact isOffset_sext16 _
  | _ => rfl

theorem wellFormed_decode (w : Word) : (decode w).wellFormed = true := wellFormed_build _ w

theorem imm_of_build {form : Form} {f : Fields} {imm : Word} {a b : Reg}
    (h : build form f = .lw a b imm ∨ build form f = .sw a b imm ∨ build form f = .beq a b imm) : imm = f.imm := by
  cases form with
  | lw | sw | beq => rcases h with h | h | h <;> cases h; rfl
  | _ => rcases h with h | h | h <;> cases h

/-- The immediate of a decoded LW, SW or BEQ is the sign extension of the word's low half (R66). -/
theorem imm_of_decode {w imm : Word} {a b : Reg}
    (h : decode w = .lw a b imm ∨ decode w = .sw a b imm ∨ decode w = .beq a b imm) :
    imm = sext16 (w.setWidth 16) := by
  rw [imm_of_build h, BitVec.setWidth_eq_extractLsb' (by decide)]; rfl

theorem and_seven_toNat (w : Word) : (w &&& 7).toNat = w.toNat % 8 := by
  rw [BitVec.toNat_and]
  exact Nat.and_two_pow_sub_one_eq_mod _ 3

/-- A register field as the source's formula gives it, `(word >> lo) & 0b111` (R61). -/
theorem regField_by_mask (w : Word) (lo : Nat) : (regField w lo).val = (w >>> lo &&& 7).toNat := by
  rw [regField_val, and_seven_toNat, BitVec.toNat_ushiftRight, Nat.shiftRight_eq_div_pow]

end Sys2Proof
end

section
/-! SUPPORT. The statements about the encoding (`30_encoding.md`), settled. -/

namespace Sys2Proof.Machine

/-- Settles O5: the decoder reads back the fields the encoder placed, and the encoder's word is its own part under the used bits. -/
theorem decodeOfEncodeIsTheInstruction : Obligations.DecodeOfEncodeIsTheInstruction := by
  intro i h
  refine ⟨decode_encode h, ?_⟩
  rw [← encode_and_usedBits i, BitVec.and_assoc, BitVec.and_not_self]
  exact BitVec.and_zero

/-- Settles O2: the fields of the word are the operands, and the opcode field is the opcode of the form it selects. -/
theorem decodeReadsFieldsByShiftAndMask : Obligations.DecodeReadsFieldsByShiftAndMask := by
  intro w
  refine ⟨regField w 19, regField w 16, regField w 0, sext16 (w.setWidth 16), regField_by_mask w 19, regField_by_mask w 16,
    regField_by_mask w 0, sext16_toInt _, ?_⟩
  rw [opcode_by_mask, decode_eq_build, ← opcode_formOf (fieldsOf w).opcode, formOf_opcode,
    BitVec.setWidth_eq_extractLsb' (by decide)]
  generalize formOf (fieldsOf w).opcode = form
  cases form <;> rfl

/-- Settles O3: the immediate is the sign extension of the low half, whose sign bit has the weight 32768. -/
theorem immediateIsTheSignedOffset : Obligations.ImmediateIsTheSignedOffset := by
  intro w imm a b h
  have himm : imm.toInt = (w.setWidth 16).toInt := by rw [imm_of_decode h, sext16_toInt]
  have hlow : (w.setWidth 16).toNat = w.toNat % 65536 := BitVec.toNat_setWidth ..
  rw [BitVec.toInt_eq_toNat_cond (x := w.setWidth 16), hlow] at himm
  omega

/-- Settles O4: the form is the one the opcode field selects, and every instruction's execution answers a next state. -/
theorem everyWordDecodesToExactlyOneForm : Obligations.EveryWordDecodesToExactlyOneForm := by
  intro w
  have hop : (decode w).form.opcode.toNat = w.toNat / 2 ^ 22 % 8 := by
    rw [form_decode, opcode_formOf]; exact opcode_toNat w
  exact ⟨⟨(decode w).form, ⟨rfl, hop⟩, fun _ h => h.1.symm⟩, fun _ => rfl, exec_answers_next (decode w)⟩

/-- Settles O7: agreement on the used bits is agreement of the decodings. -/
theorem ignoredBitsDoNotChangeTheInstruction : Obligations.IgnoredBitsDoNotChangeTheInstruction := fun _ _ h =>
  decode_eq_decode_iff.mpr (xor_and_eq_zero_iff.mp h)

/-- Settles O6: the encoding of the decoded word decodes as the word does, so the two agree on the bits the form uses, and the encoder
sets no others. -/
theorem encodeOfDecodeIsTheCanonicalWord : Obligations.EncodeOfDecodeIsTheCanonicalWord := by
  intro w
  have hcanon := canonicalWord_eq_and_usedBits w
  refine ⟨?_, hcanon, ?_⟩
  · have hdec : decode (encode (decode w)) = decode w := decode_encode (wellFormed_decode w)
    rw [hcanon, ← decode_eq_decode_iff.mp hdec, encode_and_usedBits]
  · apply decode_eq_decode_iff.mpr
    rw [hcanon, BitVec.and_assoc, BitVec.and_self]

/-- Settles O8: an immediate built from a word is a sign-extended offset. -/
theorem decodedInstructionIsWellFormed : Obligations.DecodedInstructionIsWellFormed := wellFormed_decode

/-- Settles O1: the decoder evaluates to the instruction written on each of the nine words. -/
theorem sampleWordsDecodeAsWritten : Obligations.SampleWordsDecodeAsWritten := by
  unfold Obligations.SampleWordsDecodeAsWritten
  decide

end Sys2Proof.Machine
end

section
/-! SUPPORT. The sub-blocks of the hardware view under each form's control signals (`40_step.md` R82), and when `step_n` stops (R88). -/

namespace Sys2Proof.Machine

/-! ### The memory array's data port -/

theorem dataPort_read_of_legal {s : State} {ea : Word} (v : Word) (h : ea.toNat < Config.memWords) :
    dataPort .read s ea v = .ok (s.cell ea.toNat, s.mem) := by
  simp [dataPort, State.memRead, (legal_iff _).mpr h, Except.map]

theorem dataPort_read_of_not_legal {s : State} {ea : Word} (v : Word) (h : Config.memWords ≤ ea.toNat) :
    dataPort .read s ea v = .error ⟨.load, ea⟩ := by
  simp [dataPort, State.memRead, (legal_eq_false_iff _).mpr h, Except.map]

theorem dataPort_write_of_legal {s : State} {ea : Word} (v : Word) (h : ea.toNat < Config.memWords) :
    dataPort .write s ea v = .ok (Memory.unlisted, s.mem.write ea.toNat v) := by
  simp [dataPort, State.memWrite, (legal_iff _).mpr h, Except.map]

theorem dataPort_write_of_not_legal {s : State} {ea : Word} (v : Word) (h : Config.memWords ≤ ea.toNat) :
    dataPort .write s ea v = .error ⟨.store, ea⟩ := by
  simp [dataPort, State.memWrite, (legal_eq_false_iff _).mpr h, Except.map]

/-! ### The PC sequencer -/

/-- BEQ's body sets `pc` to what the sequencer selects (`43_control.md` R120). -/
theorem bodyBeq_eq_setPc_sequencePc (a b : Reg) (imm : Word) (s : State) :
    bodyBeq a b imm s =
      .ok (s.setPc (sequencePc .branch a b (s.reg a) (s.reg b) s.link (s.branchTarget imm))) := by
  by_cases h : s.reg a = s.reg b
  · rw [bodyBeq_of_eq imm h, sequencePc, if_pos ((equal_iff _ _).mpr h)]
  · rw [bodyBeq_of_ne imm h, sequencePc, if_neg (mt (equal_iff _ _).mp h), State.advance]

/-- The equal-fields select stands in for a read of `reg_a` after the link is written (`43_control.md` R123). -/
theorem sequencePc_jump (a b : Reg) (s : State) (rd2 branchTarget : Word) :
    sequencePc .jump a b (s.reg a) rd2 s.link branchTarget = (s.setReg b s.link).reg a :=
  (s.setReg_reg a b s.link).symm

/-! ### The hardware view of each form -/

/-- The sub-blocks under a form's control signals make the step of the form's instruction, whatever the fields (R82). The cases differ in
what the data port answers and in what the PC sequencer selects. -/
theorem drive_controlOf (form : Form) (f : Fields) (s : State) :
    drive (controlOf form) f s = exec (build form f) s := by
  cases form with
  | add | nor | noop => simp only [drive, controlOf, dataPort, Bool.or_false]; rfl
  | halt => simp only [drive, controlOf, dataPort, Bool.or_true]; rfl
  | lw =>
    change _ = s.commit (bodyLw f.regA f.regB f.imm s)
    rcases Nat.lt_or_ge (s.effAddr f.regA f.imm).toNat Config.memWords with h | h
    · simp only [drive, controlOf, dataPort_read_of_legal _ h, bodyLw_ok h, Bool.or_false]; rfl
    · simp only [drive, controlOf, dataPort_read_of_not_legal _ h, bodyLw_error h, State.commit]
  | sw =>
    change _ = s.commit (bodySw f.regA f.regB f.imm s)
    rcases Nat.lt_or_ge (s.effAddr f.regA f.imm).toNat Config.memWords with h | h
    · simp only [drive, controlOf, dataPort_write_of_legal _ h, bodySw_ok h, Bool.or_false]; rfl
    · simp only [drive, controlOf, dataPort_write_of_not_legal _ h, bodySw_error h, State.commit]
  | beq =>
    change _ = s.commit (bodyBeq f.regA f.regB f.imm s)
    simp only [drive, controlOf, dataPort, bodyBeq_eq_setPc_sequencePc, Bool.or_false]; rfl
  | jalr => simp only [drive, controlOf, dataPort, sequencePc_jump, Bool.or_false]; rfl

/-! ### When `step_n` stops -/

theorem instrOutcome_of_ok {i : Instr} {s u : State} (h : bodyOf i s = .ok u) :
    instrOutcome i s = if i = .halt then .haltedThisStep else .continued := by
  simp only [instrOutcome, h]

/-- A step whose outcome ends a `step_n` loop leaves a halted engine. -/
theorem halted_of_stops {s t : State} (h : step s = .next t) (hstop : (stepOutcome s).stops = true) : t.halted = true := by
  rcases step_cases h with ⟨hh, rfl⟩ | ⟨-, -, rfl⟩ | ⟨-, -, f, -, rfl⟩ | ⟨hh, hpc, u, hb, rfl⟩
  · exact hh
  · rfl
  · rfl
  · rw [stepOutcome_of_running hh hpc, instrOutcome_of_ok hb] at hstop
    split at hstop
    · next hi => exact (State.retired_halted _ u).mpr (.inl hi)
    · cases hstop

theorem stepN_succ {n : Nat} {s t : State} (hh : s.halted = false) (h : step s = .next t) :
    stepN (n + 1) s = if (stepOutcome s).stops then .next (t, t.halted) else stepN n t := by
  simp [stepN, hh, h]

end Sys2Proof.Machine
end

section
/-! SUPPORT. The statements about the step (`40_step.md`), settled. -/

namespace Sys2Proof.Machine

/-- Settles O36: the decoded word is its opcode's form built from its fields. -/
theorem datapathRealisesEveryInstruction : Obligations.DatapathRealisesEveryInstruction := fun w s =>
  drive_controlOf (formOf (fieldsOf w).opcode) (fieldsOf w) s

/-- Settles O43, by induction on the count: a step that stops the loop leaves a halted engine, which further steps leave as it is. -/
theorem stepNIsTheRunOfItsSteps : Obligations.StepNIsTheRunOfItsSteps := by
  intro n
  induction n with
  | zero => exact fun s => ⟨s, rfl, rfl⟩
  | succ n ih =>
    intro s
    cases hh : s.halted with
    | true => exact ⟨s, run_of_halted hh _, hh ▸ stepN_of_halted hh _⟩
    | false =>
      obtain ⟨t, ht⟩ := step_answers_next s
      rw [run_succ ht, stepN_succ hh ht]
      cases hstop : (stepOutcome s).stops with
      | true => exact ⟨t, run_of_halted (halted_of_stops ht hstop) n, rfl⟩
      | false => exact ih t

/-- Settles O9: a bit vector's sum is the sum modulo `2 ^ 32`, and its bitwise operations are the bits'. -/
theorem aluAndAddersComputeModulo : Obligations.AluAndAddersComputeModulo := by
  intro x y imm s a
  refine ⟨BitVec.toNat_add x y, fun k hk => ?_, ?_, BitVec.toNat_add .., BitVec.toNat_add .., BitVec.toNat_add ..⟩
  · change (~~~(x ||| y)).getLsbD k = _
    simp [hk]
  · rw [equal_iff, BitVec.toNat_inj]

/-- Settles O25: the word at a legal `pc` is fetched, and decoding inverts the encoder. -/
theorem stepRunsTheDecodedInstruction : Obligations.StepRunsTheDecodedInstruction := by
  intro s hh hpc
  have hstep := step_of_running hh hpc
  refine ⟨hstep, fun i hi hcell => ?_⟩
  rw [hstep, hcell, decode_encode hi]

/-- Settles O26: the fetch raises the fault, and taking it leaves everything but `HALTED` and `FAULT`. -/
theorem fetchOutOfRangeTakesTheFault : Obligations.FetchOutOfRangeTakesTheFault := fun _ hh hpc =>
  ⟨stepOutcome_of_fetch_fault hh hpc, _, step_of_fetch_fault hh hpc, rfl, rfl, fun _ => rfl, fun _ => rfl, rfl, rfl⟩

end Sys2Proof.Machine
end

section
/-! SUPPORT. The register-register instructions (`41_arith.md`): the ALU's two functions, the state a register write leaves, and the
canonical word as the sum of its fields. -/

namespace Sys2Proof

/-- The canonical word of a form with a destination register is the sum of its fields (`30_encoding.md` R64, R69). -/
theorem encodeWord_dstReg_eq_sum (op : BitVec 3) (a b d : Reg) :
    encodeWord op a b (BitVec.ofNat 16 d.val) =
      BitVec.ofNat 32 (op.toNat * 2 ^ 22 + a.val * 2 ^ 19 + b.val * 2 ^ 16 + d.val) := by
  have hd : (BitVec.ofNat 16 d.val).toNat = d.val := Nat.mod_eq_of_lt (by omega)
  rw [encodeWord_eq_sum, hd]

end Sys2Proof

namespace Sys2Proof.Machine

/-! ### The ALU -/

theorem aluAdd_toNat (x y : Word) : (aluAdd x y).toNat = (x.toNat + y.toNat) % 2 ^ 32 := BitVec.toNat_add x y

theorem aluAdd_comm (x y : Word) : aluAdd x y = aluAdd y x := BitVec.add_comm x y

theorem aluNor_getLsbD (x y : Word) {k : Nat} (hk : k < 32) :
    (aluNor x y).getLsbD k = !(x.getLsbD k || y.getLsbD k) := by
  simp [aluNor, hk]

/-! ### A counted register write -/

/-- The state a register write leaves once it is committed and counted, against the state before: the frame of an instruction whose
only write is to `d` (`40_step.md` R81, R84, R85). -/
theorem State.setReg_advance_retire_frame (s : State) (d : Reg) (v : Word) :
    s.sameRegsExcept (s.setReg d v).advance.retire d ∧ s.sameMem (s.setReg d v).advance.retire ∧
      (s.setReg d v).advance.retire.pc = s.pc + 1 ∧ s.counted (s.setReg d v).advance.retire :=
  ⟨fun r hr => s.setReg_reg_of_ne r d v hr, fun _ => rfl, rfl, rfl, rfl, rfl⟩

theorem State.setReg_advance_retire_reg (s : State) (d : Reg) (v : Word) : (s.setReg d v).advance.retire.reg d = v :=
  s.setReg_reg_same d v

/-! ### ADD and NOR -/

theorem exec_add (a b d : Reg) (s : State) :
    exec (.add a b d) s = .next (s.setReg d (aluAdd (s.reg a) (s.reg b))).advance.retire := rfl

theorem exec_nor (a b d : Reg) (s : State) :
    exec (.nor a b d) s = .next (s.setReg d (aluNor (s.reg a) (s.reg b))).advance.retire := rfl

end Sys2Proof.Machine
end

section
/-! SUPPORT. The statements about the register-register instructions (`41_arith.md`), settled. -/

namespace Sys2Proof.Machine

/-- Settles O10: the word is the encoder's, and the state after is a counted write of the ALU's sum. -/
theorem addWritesTheWrappedSum : Obligations.AddWritesTheWrappedSum := by
  intro a b d s
  constructor
  · have hword := encodeWord_dstReg_eq_sum Form.add.opcode a b d
    exact (congrArg decode hword).symm.trans (decode_encode (i := .add a b d) rfl)
  · refine ⟨_, exec_add a b d s, ?_, s.setReg_advance_retire_frame d _⟩
    rw [State.setReg_advance_retire_reg, aluAdd_toNat]

/-- Settles O11: the word is the encoder's, and the state after is a counted write of the ALU's NOR. -/
theorem norWritesTheComplementOfTheOr : Obligations.NorWritesTheComplementOfTheOr := by
  intro a b d s
  constructor
  · have hword := encodeWord_dstReg_eq_sum Form.nor.opcode a b d
    exact (congrArg decode hword).symm.trans (decode_encode (i := .nor a b d) rfl)
  · refine ⟨_, exec_nor a b d s, fun k hk => ?_, s.setReg_advance_retire_frame d _⟩
    rw [State.setReg_advance_retire_reg, aluNor_getLsbD _ _ hk]

/-- Settles O12: the two write the same sum to the same register. -/
theorem addIsCommutative : Obligations.AddIsCommutative := by
  intro a b d s
  rw [exec_add, exec_add, aluAdd_comm]

end Sys2Proof.Machine
end

section
/-! SUPPORT. The memory instructions (`42_loadstore.md`): what they answer on an effective address that is not legal, and the frames of a
counted store and of a fault taken. -/

namespace Sys2Proof.Machine

/-! ### LW and SW on an effective address that is not legal -/

theorem exec_lw_of_not_legal {a b : Reg} {imm : Word} {s : State} (h : Config.memWords ≤ (s.effAddr a imm).toNat) :
    exec (.lw a b imm) s = .next (s.takeMemoryFault ⟨.load, s.effAddr a imm⟩) :=
  congrArg s.commit (bodyLw_error h)

theorem exec_sw_of_not_legal {a b : Reg} {imm : Word} {s : State} (h : Config.memWords ≤ (s.effAddr a imm).toNat) :
    exec (.sw a b imm) s = .next (s.takeMemoryFault ⟨.store, s.effAddr a imm⟩) :=
  congrArg s.commit (bodySw_error h)

/-! ### What a fault and a counted store leave -/

/-- The state a fault leaves, against the state before: the entry sets `HALTED` and `FAULT` and nothing else (`60_exceptions.md` R142). -/
theorem State.takeMemoryFault_frame (s : State) (f : FaultRecord) :
    (s.takeMemoryFault f).halted = true ∧ (s.takeMemoryFault f).fault = some f ∧
      s.sameRegs (s.takeMemoryFault f) ∧ s.sameMem (s.takeMemoryFault f) ∧
      (s.takeMemoryFault f).pc = s.pc ∧ (s.takeMemoryFault f).count = s.count :=
  ⟨rfl, rfl, fun _ => rfl, fun _ => rfl, rfl, rfl⟩

/-- The state a store leaves once it is committed and counted, against the state before: the frame of an instruction whose only write is
to cell `a` (`40_step.md` R81, R84, R85). -/
theorem State.setCell_advance_retire_frame {s : State} (hm : s.mem.wf) (a : Nat) (v : Word) :
    s.sameMemExcept (s.setCell a v).advance.retire a ∧ s.sameRegs (s.setCell a v).advance.retire ∧
      (s.setCell a v).advance.retire.pc = s.pc + 1 ∧ s.counted (s.setCell a v).advance.retire :=
  ⟨fun _ hx => State.setCell_cell_of_ne hm v hx, fun _ => rfl, rfl, rfl, rfl, rfl⟩

end Sys2Proof.Machine
end

section
/-! SUPPORT. The statements about the memory instructions (`42_loadstore.md`), settled. -/

namespace Sys2Proof.Machine

/-- Settles O13: the state after is a counted write of the cell's word to `reg_b`. -/
theorem loadReadsTheWordInRange : Obligations.LoadReadsTheWordInRange := fun _ b _ s hlt =>
  ⟨_, exec_lw_of_legal hlt, s.setReg_advance_retire_reg b _, s.setReg_advance_retire_frame b _⟩

/-- Settles O14: the load's fault is taken from the state before. -/
theorem loadOutOfRangeTakesTheFault : Obligations.LoadOutOfRangeTakesTheFault := fun _ _ _ s hge =>
  ⟨_, exec_lw_of_not_legal hge, s.takeMemoryFault_frame _⟩

/-- Settles O15: the state after is a counted write of `reg_b` to the cell, and a canonical memory reads back what was written to it. -/
theorem storeWritesTheWordInRange : Obligations.StoreWritesTheWordInRange := fun _ _ _ _ hm hlt =>
  ⟨_, exec_sw_of_legal hlt, State.setCell_cell_same hm _ _, State.setCell_advance_retire_frame hm _ _⟩

/-- Settles O16: the store's fault is taken from the state before. -/
theorem storeOutOfRangeTakesTheFault : Obligations.StoreOutOfRangeTakesTheFault := fun _ _ _ s hge =>
  ⟨_, exec_sw_of_not_legal hge, s.takeMemoryFault_frame _⟩

end Sys2Proof.Machine
end

section
/-! SUPPORT. The control-transfer instructions (`43_control.md`): what BEQ and JALR answer, the frame of a counted jump, the branch adder
over signed offsets, and the BEQ that branches to itself. -/

namespace Sys2Proof.Machine

/-! ### BEQ and JALR -/

theorem exec_beq_of_eq {a b : Reg} {s : State} (imm : Word) (h : s.reg a = s.reg b) :
    exec (.beq a b imm) s = .next (s.setPc (s.branchTarget imm)).retire :=
  congrArg s.commit (bodyBeq_of_eq imm h)

theorem exec_beq_of_ne {a b : Reg} {s : State} (imm : Word) (h : s.reg a ≠ s.reg b) :
    exec (.beq a b imm) s = .next s.advance.retire :=
  congrArg s.commit (bodyBeq_of_ne imm h)

theorem exec_jalr (a b : Reg) (s : State) :
    exec (.jalr a b) s = .next ((s.setReg b s.link).setPc ((s.setReg b s.link).reg a)).retire := rfl

/-- The branch adder with the offset read as a signed number: a branch backwards subtracts (`43_control.md` R121). -/
theorem State.branchTarget_toNat_signed (s : State) (imm : Word) :
    ((s.branchTarget imm).toNat : Int) = ((s.pc.toNat : Int) + imm.toInt) % 2 ^ 32 := by
  have hsum : (s.branchTarget imm).toNat = (s.pc.toNat + imm.toNat) % 2 ^ 32 := BitVec.toNat_add ..
  have hsigned : (imm.toNat : Int) ≡ imm.toInt [ZMOD 2 ^ 32] := by
    rw [BitVec.toInt_eq_toNat_bmod]
    exact Int.bmod_emod.symm
  rw [hsum]
  push_cast
  exact hsigned.add_left _

/-- The state a jump leaves once it is committed and counted, against the state before: the frame of an instruction whose only write is
to `pc` (`40_step.md` R81, R85). -/
theorem State.setPc_retire_frame (s : State) (target : Word) :
    s.sameRegs (s.setPc target).retire ∧ s.sameMem (s.setPc target).retire ∧ s.counted (s.setPc target).retire :=
  ⟨fun _ => rfl, fun _ => rfl, rfl, rfl, rfl⟩

/-! ### A BEQ that branches to itself (`43_control.md` R120) -/

/-- The running engine stands at a BEQ of equal registers with offset 0. -/
def State.atSelfBranch (s : State) : Prop :=
  s.halted = false ∧ s.pc.toNat < Config.memWords ∧
    ∃ a b, decode (s.cell s.pc.toNat) = .beq a b 0 ∧ s.reg a = s.reg b

theorem State.setPc_branchTarget_zero (s : State) : s.setPc (s.branchTarget 0) = s :=
  congrArg s.setPc (BitVec.add_zero s.pc)

/-- A step of such an engine counts and does nothing else. -/
theorem step_of_atSelfBranch {s : State} (h : s.atSelfBranch) : step s = .next s.retire := by
  obtain ⟨hh, hpc, a, b, hi, hab⟩ := h
  rw [step_of_running hh hpc, hi, exec_beq_of_eq 0 hab, State.setPc_branchTarget_zero]

/-- The premise reads no `COUNT`, so counting keeps it. -/
theorem State.retire_atSelfBranch {s : State} (h : s.atSelfBranch) : s.retire.atSelfBranch := h

/-- `n` steps of such an engine add `n` to `COUNT`, wrapping, and leave the rest of the state. -/
theorem run_of_atSelfBranch (n : Nat) {s : State} (h : s.atSelfBranch) :
    Sys2Proof.core.run n s = .next (s.withRecord (s.count + BitVec.ofNat 64 n) s.fault) := by
  induction n generalizing s with
  | zero => rw [BitVec.add_zero]; rfl
  | succ n ih =>
    have hcount : s.count + 1 + BitVec.ofNat 64 n = s.count + BitVec.ofNat 64 (n + 1) := by
      rw [Nat.add_comm n 1, BitVec.ofNat_add, BitVec.add_assoc]
      rfl
    rw [run_succ (step_of_atSelfBranch h), ih (State.retire_atSelfBranch h), ← hcount]
    rfl

end Sys2Proof.Machine
end

section
/-! SUPPORT. The statements about the control-transfer instructions (`43_control.md`), settled. -/

namespace Sys2Proof.Machine

/-- Settles O20: a taken branch is a counted jump to the branch adder's sum, and any other a counted jump to the link. -/
theorem branchTargetIsRelativeToItsOwnAddress : Obligations.BranchTargetIsRelativeToItsOwnAddress := by
  intro a b imm s
  by_cases hab : s.reg a = s.reg b
  · exact ⟨_, exec_beq_of_eq imm hab, fun _ => s.branchTarget_toNat_signed imm, fun hne => absurd hab hne,
      s.setPc_retire_frame _⟩
  · exact ⟨_, exec_beq_of_ne imm hab, fun heq => absurd heq hab, fun _ => rfl, s.setPc_retire_frame s.link⟩

/-- Settles O21: the target is read after the link is written, so it is the link exactly where that write went to `reg_a`. -/
theorem jumpAndLinkWritesTheLinkThenJumps : Obligations.JumpAndLinkWritesTheLinkThenJumps := by
  intro a b s
  refine ⟨_, exec_jalr a b s, s.setReg_reg_same b s.link, fun hne => ?_, fun heq => ?_,
    fun r hr => s.setReg_reg_of_ne r b s.link hr, fun _ => rfl, rfl, rfl, rfl⟩
  · exact s.setReg_reg_of_ne a b s.link hne
  · subst heq
    exact s.setReg_reg_same a s.link

/-- Settles O22: each step counts and leaves the engine at the same branch, so a run only counts. -/
theorem branchToItselfNeverHalts : Obligations.BranchToItselfNeverHalts := fun a b _ hh hpc hi hab n =>
  ⟨_, run_of_atSelfBranch n ⟨hh, hpc, a, b, hi, hab⟩, hh, rfl, rfl, rfl, rfl, rfl⟩

end Sys2Proof.Machine
end

section
/-! SUPPORT. The machine-control instructions (`44_system.md`): the words of one opcode, and what HALT and NOOP answer. -/

namespace Sys2Proof

/-- The opcode field alone selects the form, whatever the word's other bits (`30_encoding.md` R61, R67). -/
theorem decode_eq_build_of_opcode {w : Word} {form : Form} (h : (w >>> 22 &&& 7).toNat = form.opcode.toNat) :
    decode w = build form (fieldsOf w) := by
  have hop : (fieldsOf w).opcode = form.opcode := BitVec.eq_of_toNat_eq ((opcode_by_mask w).symm.trans h)
  rw [decode_eq_build, hop, formOf_opcode]

end Sys2Proof

namespace Sys2Proof.Machine

theorem exec_halt (s : State) : exec .halt s = .next s.advance.retire.halt := rfl

theorem exec_noop (s : State) : exec .noop s = .next s.advance.retire := rfl

theorem instrOutcome_halt (s : State) : instrOutcome .halt s = .haltedThisStep := rfl

end Sys2Proof.Machine
end

section
/-! SUPPORT. The statements about the machine-control instructions (`44_system.md`), settled. -/

namespace Sys2Proof.Machine

/-- Settles O23: the state after is a counted advance with `HALTED` set, and a halted engine never changes. -/
theorem haltStopsTheMachineForGood : Obligations.HaltStopsTheMachineForGood := by
  refine ⟨fun _ hop => decode_eq_build_of_opcode (form := .halt) hop, fun s => ⟨instrOutcome_halt s, _, exec_halt s, ?_⟩⟩
  have hhalted : s.advance.retire.halt.halted = true := rfl
  exact ⟨rfl, hhalted, rfl, rfl, fun _ => rfl, fun _ => rfl, fun n =>
    ⟨run_of_halted hhalted n, stepN_of_halted hhalted n, stepOutcome_of_halted hhalted⟩⟩

/-- Settles O24: the state after is a counted jump to the link. -/
theorem noopOnlyAdvancesAndCounts : Obligations.NoopOnlyAdvancesAndCounts :=
  ⟨fun _ hop => decode_eq_build_of_opcode (form := .noop) hop, fun s =>
    ⟨_, exec_noop s, rfl, s.setPc_retire_frame s.link⟩⟩

end Sys2Proof.Machine
end

section
/-! SUPPORT. The step state machine (`60_exceptions.md` R145): what a step leaves and the outcome it answers, said together. -/

namespace Sys2Proof.Machine

/-- The outcome beside what a step can do, with the two ways to a fault (R141) as one case. -/
theorem step_transition {s t : State} (h : step s = .next t) :
    (s.halted = true ∧ stepOutcome s = .alreadyHalted ∧ t = s) ∨
    (s.halted = false ∧ ∃ f, stepOutcome s = .memoryFault f ∧ Config.memWords ≤ f.addr.toNat ∧ t = s.takeMemoryFault f) ∨
    (s.halted = false ∧ ∃ u, bodyOf (decode (s.cell s.pc.toNat)) s = .ok u ∧
      stepOutcome s = (if decode (s.cell s.pc.toNat) = .halt then .haltedThisStep else .continued) ∧
      t = if decode (s.cell s.pc.toNat) = .halt then u.retire.halt else u.retire) := by
  rcases step_cases h with ⟨hh, rfl⟩ | ⟨hh, hpc, rfl⟩ | ⟨hh, hpc, f, hb, rfl⟩ | ⟨hh, hpc, u, hb, rfl⟩
  · exact .inl ⟨hh, stepOutcome_of_halted hh, rfl⟩
  · exact .inr (.inl ⟨hh, _, stepOutcome_of_fetch_fault hh hpc, hpc, rfl⟩)
  · obtain ⟨-, haddr⟩ := bodyOf_error_record hb
    exact .inr (.inl ⟨hh, f, (stepOutcome_of_running hh hpc).trans (instrOutcome_memoryFault_iff.mpr hb), haddr, rfl⟩)
  · exact .inr (.inr ⟨hh, u, hb, (stepOutcome_of_running hh hpc).trans (instrOutcome_of_ok hb), rfl⟩)

/-- A step that answers `MemoryFault` takes that fault, on an address that is not legal (R142). -/
theorem step_of_memoryFault {s : State} {f : FaultRecord} (ho : stepOutcome s = .memoryFault f) :
    step s = .next (s.takeMemoryFault f) ∧ Config.memWords ≤ f.addr.toNat := by
  obtain ⟨t, ht⟩ := step_answers_next s
  rcases step_transition ht with ⟨-, ho', -⟩ | ⟨-, g, ho', haddr, rfl⟩ | ⟨-, u, -, ho', -⟩
  · cases ho.symm.trans ho'
  · cases ho.symm.trans ho'
    exact ⟨ht, haddr⟩
  · rw [ho] at ho'
    split at ho' <;> cases ho'

end Sys2Proof.Machine
end

section
/-! SUPPORT. The statements about the exception (`60_exceptions.md`), settled. -/

namespace Sys2Proof.Machine

/-- Settles O27: such a step takes the fault, and the entry of R142 leaves everything but `HALTED` and `FAULT`. -/
theorem faultingStepDiscardsEveryWrite : Obligations.FaultingStepDiscardsEveryWrite := by
  intro s f ho
  obtain ⟨hstep, haddr⟩ := step_of_memoryFault ho
  exact ⟨haddr, _, hstep, s.takeMemoryFault_frame f⟩

/-- Settles O28, by the step's transition: HALT's body is an advance, and every completed body leaves the status state to the commit. -/
theorem stepFollowsTheStateMachine : Obligations.StepFollowsTheStateMachine := by
  intro s
  obtain ⟨t, ht⟩ := step_answers_next s
  refine ⟨t, ht, ?_⟩
  rcases step_transition ht with ⟨hh, ho, rfl⟩ | ⟨hh, f, ho, -, rfl⟩ | ⟨hh, u, hb, ho, rfl⟩
  · exact ⟨fun _ => ⟨ho, rfl⟩, fun h => absurd (h.symm.trans hh) Bool.false_ne_true⟩
  · exact ⟨fun h => absurd (hh.symm.trans h) Bool.false_ne_true, fun _ => .inr (.inr ⟨f, ho, rfl⟩)⟩
  · refine ⟨fun h => absurd (hh.symm.trans h) Bool.false_ne_true, fun _ => ?_⟩
    by_cases hi : decode (s.cell s.pc.toNat) = .halt
    · rw [hi] at hb
      cases hb
      rw [if_pos hi] at ho ⊢
      exact .inr (.inl ⟨ho, rfl, rfl, rfl, rfl, hi⟩)
    · obtain ⟨hhalted, hcount, hfault, -⟩ := bodyOf_ok hb
      rw [if_neg hi] at ho ⊢
      exact .inl ⟨ho, hhalted.trans hh, congrArg (· + 1) hcount, hfault, hi⟩

end Sys2Proof.Machine
end

section
/-! SUPPORT. Construction (`70_reset_and_hazards.md` R160, R161): the engine that holds an image, and when `construct` gives it. -/

namespace Sys2Proof.Machine

/-- The engine in its reset state but for the image in its memory (R160). -/
def State.loaded (image : List Word) : State := { State.reset with mem := Memory.ofWords 0 image }

theorem construct_of_fits {image : List Word} (h : image.length ≤ Config.memWords) :
    construct image = .engine (State.loaded image) :=
  if_pos h

theorem construct_of_too_large {image : List Word} (h : Config.memWords < image.length) :
    construct image = .imageTooLarge :=
  if_neg (Nat.not_le.mpr h)

/-- The converse of `construct_of_fits`: no other engine is constructed. -/
theorem construct_eq_engine {image : List Word} {s : State} (h : construct image = .engine s) :
    image.length ≤ Config.memWords ∧ s = State.loaded image := by
  rcases Nat.lt_or_ge Config.memWords image.length with hlt | hle
  · cases (construct_of_too_large hlt).symm.trans h
  · cases (construct_of_fits hle).symm.trans h
    exact ⟨hle, rfl⟩

/-- The image lies in memory from word 0 on, and zeros after it (`20_memory.md` R41). -/
theorem State.loaded_cell (image : List Word) (i : Nat) :
    (State.loaded image).cell i = if h : i < image.length then image[i] else 0 := by
  have hread : (State.loaded image).cell i = image.getD i Memory.unlisted :=
    (Memory.read_ofWords 0 image i).trans (if_pos (Nat.zero_le i))
  rw [hread]
  split
  · next h => exact List.getD_eq_getElem image _ h
  · next h => exact List.getD_eq_default image _ (Nat.le_of_not_lt h)

theorem State.loaded_inv {image : List Word} (h : image.length ≤ Config.memWords) : (State.loaded image).inv :=
  State.inv_of_fault_eq_none (Memory.ofWords_wf (by rwa [Nat.zero_add])) rfl

end Sys2Proof.Machine
end

section
/-! SUPPORT. The statements about reset and the ends of a run (`70_reset_and_hazards.md`), settled. -/

namespace Sys2Proof.Machine

/-- Settles O39: the constructed engine is at reset but for the loaded memory. -/
theorem constructionLoadsTheImage : Obligations.ConstructionLoadsTheImage := by
  obtain ⟨hregs, -, hstatus⟩ := resetLeavesTheStatedValues
  exact fun image =>
    ⟨fun hfits => ⟨_, construct_of_fits hfits, fun i _ => State.loaded_cell image i, hregs, hstatus⟩, construct_of_too_large⟩

/-- Settles O41: the one engine constructed from an image holds it in canonical form and records no fault. -/
theorem invariantHoldsAfterConstruction : Obligations.InvariantHoldsAfterConstruction := by
  intro image s h
  obtain ⟨hfits, rfl⟩ := construct_eq_engine h
  exact State.loaded_inv hfits

/-- Settles O34, by the step state machine: a running engine in the invariant records no fault, so only the step that takes one leaves a
record. -/
theorem runEndsByHaltOrByFault : Obligations.RunEndsByHaltOrByFault := by
  intro s t ⟨_, hs⟩ hh h
  have hnone : s.fault = none := State.fault_eq_none_of_running hs hh
  obtain ⟨t', ht', -, hrunning⟩ := stepFollowsTheStateMachine s
  cases h.symm.trans ht'
  rcases hrunning hh with ⟨ho, hhalted, -, hfault, -⟩ | ⟨ho, hhalted, -, hfault, -⟩ | ⟨f, ho, rfl⟩
  · simp [State.endedByHalt, State.endedByFault, ho, hhalted]
  · simp [State.endedByHalt, State.endedByFault, ho, hhalted, hfault, hnone]
  · simp [State.endedByHalt, State.endedByFault, ho]

end Sys2Proof.Machine
end

section
/-! SUPPORT. The host's operations (`80_host_interface.md`): what each request leaves and answers, and what the windowed observers answer
on either side of their bounds. -/

namespace Sys2Proof.Machine

/-! ### The step and observer ports (R180, R181) -/

theorem serve_step {s t : State} (h : step s = .next t) : serve .step s = .next (t, .outcome (stepOutcome s)) := by
  simp only [serve, h]

theorem serve_stepN {k : Nat} {s t : State} {b : Bool} (h : stepN k s = .next (t, b)) :
    serve (.stepN k) s = .next (t, .halted b) := by
  simp only [serve, h]

/-- An observer is answered and leaves the state (R182). -/
theorem serve_of_observes {q : Request} (s : State) (h : q.observes = true) : ∃ r, serve q s = .next (s, r) := by
  cases q with
  | step => cases h
  | stepN k => cases h
  | _ => exact ⟨_, rfl⟩

/-- Every step of a run keeps the invariant, so the run does. -/
theorem run_keeps_inv {n : Nat} {s t : State} (hs : s.inv) (h : Sys2Proof.core.run n s = .next t) : t.inv := by
  induction n generalizing s with
  | zero => cases h; exact hs
  | succ n ih =>
    obtain ⟨u, hu⟩ := step_answers_next s
    rw [run_succ hu] at h
    exact ih (invariantKeptByEveryStep s u hs hu) h

/-! ### The observers with an error (R185, R186, R190) -/

theorem readRegister_of_lt (s : State) {r : Nat} (h : r < 8) : readRegister s r = .value (s.reg ⟨r, h⟩) :=
  dif_pos h

theorem readRegister_of_ge (s : State) {r : Nat} (h : 8 ≤ r) : readRegister s r = .outOfRange :=
  dif_neg (Nat.not_lt.mpr h)

theorem Memory.window_length (m : Memory) (start len : Nat) : (m.window start len).length = len := by
  simp [Memory.window]

theorem Memory.window_getElem? (m : Memory) (start : Nat) {len i : Nat} (h : i < len) :
    (m.window start len)[i]? = some (m.read (start + i)) := by
  simp [Memory.window, h]

theorem readMemoryRange_of_fits (s : State) {start len : Nat} (h : start + len ≤ Config.memWords) :
    readMemoryRange s start len = .value (s.mem.window start len) :=
  if_pos h

theorem readMemoryRange_of_exceeds (s : State) {start len : Nat} (h : Config.memWords < start + len) :
    readMemoryRange s start len = .outOfRange :=
  if_neg (Nat.not_le.mpr h)

/-- The addresses and decoded words of the `count` cells from `pc` on: what `peek_instructions` answers when they are all in the array. -/
def State.listing (s : State) (count : Nat) : List (Word × Instr) :=
  (List.range count).map fun i => (s.pc + BitVec.ofNat 32 i, decode (s.cell (s.pc.toNat + i)))

theorem State.listing_length (s : State) (count : Nat) : (s.listing count).length = count := by
  simp [State.listing]

theorem State.listing_getElem? (s : State) {count i : Nat} (h : i < count) :
    (s.listing count)[i]? = some (s.pc + BitVec.ofNat 32 i, decode (s.cell (s.pc.toNat + i))) := by
  simp [State.listing, h]

theorem peekInstructions_of_fits {s : State} {count : Nat} (h : s.pc.toNat + count ≤ Config.memWords) :
    peekInstructions s count = .value (s.listing count) :=
  if_pos h

theorem peekInstructions_of_exceeds {s : State} {count : Nat} (h : Config.memWords < s.pc.toNat + count) :
    peekInstructions s count = .outOfRange :=
  if_neg (Nat.not_le.mpr h)

/-- The addresses of a window inside the array do not wrap: 65536 is far below `2 ^ 32`. -/
theorem State.pc_add_ofNat_toNat {s : State} {i : Nat} (h : s.pc.toNat + i < Config.memWords) :
    (s.pc + BitVec.ofNat 32 i).toNat = s.pc.toNat + i := by
  rw [Config.memWords_eq] at h
  have hi : (BitVec.ofNat 32 i).toNat = i := Nat.mod_eq_of_lt (by omega)
  rw [BitVec.toNat_add, hi]
  exact Nat.mod_eq_of_lt (by omega)

end Sys2Proof.Machine
end

section
/-! SUPPORT. The statements about the host's interface (`80_host_interface.md`), settled. -/

namespace Sys2Proof.Machine

/-- Settles O44, by the three kinds of request: a step, a run of steps (O43), and an observer; runs keep the invariant. -/
theorem hostRequestsOnlyStepTheEngine : Obligations.HostRequestsOnlyStepTheEngine := by
  intro q s hs
  cases q with
  | step =>
    obtain ⟨t, ht⟩ := step_answers_next s
    exact ⟨t, _, serve_step ht, invariantKeptByEveryStep s t hs ht, fun _ => ⟨ht, run_succ ht, rfl⟩, nofun, nofun⟩
  | stepN n =>
    obtain ⟨t, hrun, hstepN⟩ := stepNIsTheRunOfItsSteps n s
    refine ⟨t, _, serve_stepN hstepN, run_keeps_inv hs hrun, nofun, fun k hk => ?_, nofun⟩
    cases hk
    exact ⟨hrun, hstepN, rfl⟩
  | _ => exact ⟨s, _, rfl, hs, nofun, nofun, fun _ => rfl⟩

/-- Settles O47: `readMemoryRange`'s bound is the statement's, and within it the answer is memory's window. -/
theorem readMemoryRangeAnswersTheWindow : Obligations.ReadMemoryRangeAnswersTheWindow := fun s start len =>
  ⟨fun hfits => ⟨_, readMemoryRange_of_fits s hfits, s.mem.window_length start len, fun _ => s.mem.window_getElem? start⟩,
    readMemoryRange_of_exceeds s⟩

/-- Settles O48: within the bound no address of the listing wraps, so each is the one whose cell is decoded. -/
theorem peekInstructionsDecodesTheWindow : Obligations.PeekInstructionsDecodesTheWindow := by
  refine fun s count => ⟨fun hfits => ?_, peekInstructions_of_exceeds⟩
  refine ⟨_, peekInstructions_of_fits hfits, s.listing_length count, fun i hi => ?_⟩
  have haddr : (s.pc + BitVec.ofNat 32 i).toNat = s.pc.toNat + i :=
    State.pc_add_ofNat_toNat (lt_of_lt_of_le (Nat.add_lt_add_left hi _) hfits)
  exact ⟨_, haddr, haddr.symm ▸ s.listing_getElem? hi⟩

/-- Settles O45: no observer's request runs a step, and each one's answer is that of its function. -/
theorem observersChangeNothing : Obligations.ObserversChangeNothing :=
  ⟨fun _ s h => serve_of_observes s h, fun _ => ⟨rfl, rfl, rfl, fun _ => rfl, fun _ _ => rfl, fun _ => rfl⟩⟩

/-- Settles O46: `readRegister`'s bound is the number of registers. -/
theorem readRegisterAnswersOrIsOutOfRange : Obligations.ReadRegisterAnswersOrIsOutOfRange := fun s _ =>
  ⟨readRegister_of_lt s, readRegister_of_ge s⟩

end Sys2Proof.Machine
end
